-- ==== Sys2Proof/Word.lean ====
section
/-! DEFINITION. Word.lean: the bit widths of the hardware (00_scope.md R4, 30_encoding.md R55) and the
SEG pair that SETBIT and CLRBIT take as their one operand (10_state.md R18). -/

namespace Sys2Proof

/-- A byte: 8 bits, unsigned (R6). Buffer slots, addresses, masks, opcodes and character codes (R55). -/
abbrev Byte := BitVec 8

/-- A nibble: the 4-bit unit of a data frame (R6, R53). -/
abbrev Nibble := BitVec 4

/-- A 7-segment pattern: bit 6 is segment A, down to bit 0, segment G (R6, R16). -/
abbrev Pattern := BitVec 7

/-- The 6-bit address field of a data frame (R4, R53). -/
abbrev AddrBits := BitVec 6

/-- The 32-bit host-port word (30_encoding.md R54). -/
abbrev HostWord := BitVec 32

/-- BUF_SIZE: the number of buffer bytes (R4). -/
abbrev bufSize : Nat := 32

/-- ROM_SIZE: the number of character codes with a table entry (R4). -/
abbrev romSize : Nat := 128

/-- A SEG: one addressable segment, a buffer address and a mask (10_state.md R18). Both are whole bytes:
the operations accept any address and any mask (90_conflicts.md C5, 41_segment_buffer.md R97). -/
structure Seg where
  address : Byte
  mask : Byte
  deriving DecidableEq, Repr, Inhabited

/-- NUL_SEG, "no physical segment" (R8, R18). -/
def Seg.nul : Seg := ⟨0, 0⟩

end Sys2Proof
end

