-- ==== Sys2Proof/Syntax.lean ====
section
/-! DEFINITION. Syntax.lean: one constructor for each row of spec/opcode_table.json: the fourteen operations
of 30_encoding.md R50, with the operands and widths of R50 and R55, and the two wire-frame formats of R52 and R53, which are
rows of the table and no operations: the block emits them and never decodes them (R51; log entry 13). -/

namespace Sys2Proof

/-- The rows of the opcode table: the fourteen operations a host can issue (R50), and the two frames (R52, R53). -/
inductive Instr where
  /-- WRCMD opcode: one command frame (40_bus_encoder.md R72). -/
  | wrcmd (opcode : Byte)
  /-- WRADDR address, nibble: one data frame, at once, past the buffer (R73, R74). -/
  | wraddr (address : Byte) (nibble : Nibble)
  /-- SETBIT seg: OR the mask into the byte (41_segment_buffer.md R90). -/
  | setbit (seg : Seg)
  /-- CLRBIT seg: AND-NOT the mask into the byte (R91). -/
  | clrbit (seg : Seg)
  /-- FILL value: every byte becomes `value` (R92). -/
  | fill (value : Byte)
  /-- RDBYTE address: returns one byte to the host (R93). -/
  | rdbyte (address : Byte)
  /-- WRBYTE address, value: stores one byte (R94). -/
  | wrbyte (address value : Byte)
  /-- FLUSH: 32 data frames in ascending address order (R95). -/
  | flush
  /-- PATTERN code: returns one 7-bit pattern to the host (42_char_rom.md R110). -/
  | pattern (code : Byte)
  /-- BLSET level: drives the optional backlight line (40_bus_encoder.md R75). -/
  | blset (level : Bool)
  /-- INIT: the startup sequence (70_reset_and_hazards.md R163). -/
  | init
  /-- DISPSTR s: renders a string, a finite list of byte codes of any length (43_digit_composer.md R120, D22). -/
  | dispstr (text : List Byte)
  /-- DISPINT i: renders the decimal text of a signed integer of INT_W bits (R129). -/
  | dispint (i : Int)
  /-- DISPHEX i: renders the hexadecimal text of a signed integer of INT_W bits (R130). -/
  | disphex (i : Int)
  /-- FRAME.CMD: a command frame `100cccccccc`, no operation: "No other operation exists" (30_encoding.md R50, R52). -/
  | frameCmd (opcode : Byte)
  /-- FRAME.DATA: a data frame `101aaaaaadddd`, its address field given, no operation (R50, R53). -/
  | frameData (field : AddrBits) (nibble : Nibble)
  deriving DecidableEq, Repr

end Sys2Proof
end

