-- ==== Sys2Proof/WellFormed.lean ====
section
/-! DEFINITION. WellFormed.lean: which operations have a word of their own at the host port (30_encoding.md R54), or a
frame of their own on the wire (R52, R53). It restricts the encoding only: every operation has its meaning (R51). -/

namespace Sys2Proof

/-- A string the word can hand over in one way: its length fits the field `f`, saturated at 15, and the characters
past the third, which the word does not carry (R54), are 0 (log entry 14). -/
def textFitsWord (text : List Byte) : Bool :=
  decide (text.length ≤ 15) && (text.drop 3).all (· == 0)

/-- An integer the word can carry: 16 bits, two's complement (R54). -/
def intFitsWord (i : Int) : Bool :=
  decide (-32768 ≤ i) && decide (i < 32768)

/-- Every operand of fixed width is well formed by its type; the string and the two integers are checked. -/
def WellFormed : Instr → Bool
  | .wrcmd _ => true
  | .wraddr _ _ => true
  | .setbit _ => true
  | .clrbit _ => true
  | .fill _ => true
  | .rdbyte _ => true
  | .wrbyte _ _ => true
  | .flush => true
  | .pattern _ => true
  | .blset _ => true
  | .init => true
  | .dispstr text => textFitsWord text
  | .dispint i => intFitsWord i
  | .disphex i => intFitsWord i
  | .frameCmd _ => true
  | .frameData _ _ => true

end Sys2Proof
end

