-- ==== Sys2Proof/Decode.lean ====
section
/-! DEFINITION. Decode.lean: reading a host-port word (30_encoding.md R54, R60) and a wire frame (R52, R53) into a row
of the opcode table, total and rejecting by name; after it the encoder, from the same tables. -/

namespace Sys2Proof

/-- The bits of a row of the opcode table: a 32-bit host-port word (R54), or a frame's bits in transmission order (R6, R52,
R53), which only a receiver reads and the block never does (R51). -/
inductive Packet where
  | host (w : HostWord)
  | wire (bits : List Bool)
  deriving DecidableEq, Repr

/-- Why a packet is no row of the opcode table. -/
inductive DecodeError where
  /-- Host-port `op` 0x0 or 0xF: reserved, and ignored by the block (R61 (e)). -/
  | reservedOp (op : BitVec 4)
  /-- A bit list that is neither `100` and 8 bits nor `101` and 10 bits: the block has no such frame (R61 (a), R62). -/
  | notAFrame (bits : List Bool)
  deriving DecidableEq, Repr

/-- `msb_first(v, W)`: the bits of `v`, most significant first (40_bus_encoder.md R71). -/
def msbFirst {w : Nat} (v : BitVec w) : List Bool :=
  (List.range w).map fun k => v.getMsbD k

/-- The unsigned value of a bit list read left to right, most significant bit first (R6). -/
def bitsValue (bits : List Bool) : Nat :=
  bits.foldl (fun v b => 2 * v + b.toNat) 0

/-- TAG_CMD (R4). -/
def tagCmd : List Bool := [true, false, false]

/-- TAG_DATA (R4). -/
def tagData : List Bool := [true, false, true]

/-- The command frame `100cccccccc` (R52). -/
def cmdFrame (opcode : Byte) : List Bool := tagCmd ++ msbFirst opcode

/-- The data frame `101aaaaaadddd` (R53). -/
def dataFrame (field : AddrBits) (nibble : Nibble) : List Bool :=
  tagData ++ msbFirst field ++ msbFirst nibble

/-- `op = w[31:28]` (R54). -/
def wordOp (w : HostWord) : BitVec 4 := w.extractLsb' 28 4

/-- `f = w[27:24]` (R54). -/
def wordF (w : HostWord) : BitVec 4 := w.extractLsb' 24 4

/-- `b2 = w[23:16]` (R54). -/
def wordB2 (w : HostWord) : Byte := w.extractLsb' 16 8

/-- `b1 = w[15:8]` (R54). -/
def wordB1 (w : HostWord) : Byte := w.extractLsb' 8 8

/-- `b0 = w[7:0]` (R54). -/
def wordB0 (w : HostWord) : Byte := w.extractLsb' 0 8

/-- The nibble of a WRADDR word, `w[3:0]` (R54). -/
def wordNibble (w : HostWord) : Nibble := w.extractLsb' 0 4

/-- The level of a BLSET word, `w[0]` (R54). -/
def wordLevel (w : HostWord) : Bool := w.getLsbD 0

/-- The string of a DISPSTR word: the length is `f`, the characters are b2, b1, b0; a character past the third is not in the
word and stands as 0, which no effect depends on (R54, R122; log entry 14). -/
def wordText (w : HostWord) : List Byte :=
  ([wordB2 w, wordB1 w, wordB0 w] ++ List.replicate ((wordF w).toNat - 3) 0).take (wordF w).toNat

/-- The integer of a DISPINT or DISPHEX word: the two's-complement value of `w[15:0]` (R54). -/
def wordInt (w : HostWord) : Int := (w.extractLsb' 0 16).toInt

/-- The operation a host-port word selects, by `w[31:28]` alone (R60). -/
def decodeHost (w : HostWord) : Except DecodeError Instr :=
  match (wordOp w).toNat with
  | 0x1 => .ok (.wrcmd (wordB0 w))
  | 0x2 => .ok (.wraddr (wordB1 w) (wordNibble w))
  | 0x3 => .ok (.setbit ⟨wordB1 w, wordB0 w⟩)
  | 0x4 => .ok (.clrbit ⟨wordB1 w, wordB0 w⟩)
  | 0x5 => .ok (.fill (wordB0 w))
  | 0x6 => .ok (.rdbyte (wordB1 w))
  | 0x7 => .ok (.wrbyte (wordB1 w) (wordB0 w))
  | 0x8 => .ok .flush
  | 0x9 => .ok (.pattern (wordB0 w))
  | 0xA => .ok (.blset (wordLevel w))
  | 0xB => .ok .init
  | 0xC => .ok (.dispstr (wordText w))
  | 0xD => .ok (.dispint (wordInt w))
  | 0xE => .ok (.disphex (wordInt w))
  | _ => .error (.reservedOp (wordOp w))

/-- The frame a receiver reads a bit list as, told by its length and its tag (R62): 11 bits after `100`, or 13 bits after `101`. -/
def decodeFrame (bits : List Bool) : Except DecodeError Instr :=
  if bits.length = 11 ∧ bits.take 3 = tagCmd then
    .ok (.frameCmd (BitVec.ofNat 8 (bitsValue (bits.drop 3))))
  else if bits.length = 13 ∧ bits.take 3 = tagData then
    .ok (.frameData (BitVec.ofNat 6 (bitsValue ((bits.drop 3).take 6))) (BitVec.ofNat 4 (bitsValue (bits.drop 9))))
  else
    .error (.notAFrame bits)

/-- The row of the opcode table, with its operands, that a packet stands for. -/
def decode : Packet → Except DecodeError Instr
  | .host w => decodeHost w
  | .wire bits => decodeFrame bits

/-! ## The encoder -/

/-- A host-port word from its fields (R54). -/
def hostWord (op f : BitVec 4) (b2 b1 b0 : Byte) : HostWord := op ++ f ++ b2 ++ b1 ++ b0

/-- The word of a 16-bit integer operation (R54); the ignored bits are 0. -/
def intWord (op : BitVec 4) (i : Int) : HostWord := op ++ (0 : BitVec 12) ++ BitVec.ofInt 16 i

/-- The packet of an operation (R54), or of a frame (R52, R53); bits the word ignores are 0, and the length field of a
string saturates at 15. -/
def encode : Instr → Packet
  | .wrcmd opcode => .host (hostWord 0x1 0 0 0 opcode)
  | .wraddr address nibble => .host (hostWord 0x2 0 0 address (nibble.zeroExtend 8))
  | .setbit seg => .host (hostWord 0x3 0 0 seg.address seg.mask)
  | .clrbit seg => .host (hostWord 0x4 0 0 seg.address seg.mask)
  | .fill value => .host (hostWord 0x5 0 0 0 value)
  | .rdbyte address => .host (hostWord 0x6 0 0 address 0)
  | .wrbyte address value => .host (hostWord 0x7 0 0 address value)
  | .flush => .host (hostWord 0x8 0 0 0 0)
  | .pattern code => .host (hostWord 0x9 0 0 0 code)
  | .blset level => .host (hostWord 0xA 0 0 0 (if level then 1 else 0))
  | .init => .host (hostWord 0xB 0 0 0 0)
  | .dispstr text =>
      .host (hostWord 0xC (BitVec.ofNat 4 (min text.length 15)) (text.getD 0 0) (text.getD 1 0) (text.getD 2 0))
  | .dispint i => .host (intWord 0xD i)
  | .disphex i => .host (intWord 0xE i)
  | .frameCmd opcode => .wire (cmdFrame opcode)
  | .frameData field nibble => .wire (dataFrame field nibble)

/-! ## The opcode table's numbering -/

/-- The packet of a table row whose bits, numbered as the table numbers them, are `w`: a row of more than 16 bits is a
host-port word; a shorter one is a frame, read "as a number whose most significant bit is the first bit transmitted",
of 11 bits if it fits in 11, of 13 if it fits in 13, and otherwise no frame. -/
def tablePacket (nbits w : Nat) : Packet :=
  if 16 < nbits then .host (BitVec.ofNat 32 w)
  else if w < 2 ^ 11 then .wire (msbFirst (BitVec.ofNat 11 w))
  else if w < 2 ^ 13 then .wire (msbFirst (BitVec.ofNat 13 w))
  else .wire (msbFirst (BitVec.ofNat 16 w))

/-- What the decoder reads from a table row's word, none where it rejects it. -/
def decodeTableWord (nbits w : Nat) : Option Instr :=
  match decode (tablePacket nbits w) with
  | .ok i => some i
  | .error _ => none

end Sys2Proof
end

