-- ==== Sys2Proof/Config.lean ====
section
/-! DEFINITION. Config.lean: what is fixed when the block is built (00_scope.md R5, 10_state.md R16 to R18, R25) as plain
data, and the unconstrained constants that stand for every value the spec leaves open. -/

namespace Sys2Proof

/-- How the shifted address is placed in the 6-bit field: the two functions 30_encoding.md R56 admits. -/
inductive AddrField where
  /-- `TOP6`, the spec's default: the top six bits of the 8-bit shifted address. -/
  | top6
  /-- `LOW6`, the only admitted alternative: the low six bits of it. -/
  | low6
  deriving DecidableEq, Repr, Inhabited

/-- The command catalog: seven named 8-bit opcodes (10_state.md R15). -/
structure Catalog where
  clockSrc : Byte
  bias : Byte
  sysDis : Byte
  wdtDis : Byte
  sysEn : Byte
  dispOn : Byte
  dispOff : Byte
  deriving DecidableEq, Repr, Inhabited

/-- The segment labels A to G (R8, R18). -/
inductive SegLabel where
  | a | b | c | d | e | f | g
  deriving DecidableEq, Repr, Inhabited

/-- The names SEGMAP binds: digit segments, bar-graph cells, icons (R8). -/
inductive SegName where
  | hundreds (label : SegLabel)
  | tens (label : SegLabel)
  | ones (label : SegLabel)
  | barGraph (cell : Nat)
  | icon (number : Nat)
  deriving DecidableEq, Repr, Inhabited

/-- The four masks a SEGMAP entry may have (R18: "one of {0x80,0x40,0x20,0x10}"). -/
inductive TopMask where
  | x80 | x40 | x20 | x10
  deriving DecidableEq, Repr, Inhabited

/-- The mask byte of a SEGMAP entry (R18). -/
def TopMask.byte : TopMask → Byte
  | .x80 => 0x80
  | .x40 => 0x40
  | .x20 => 0x20
  | .x10 => 0x10

/-- The place of a named segment: an address in [0,31] and one of the four masks, so that the invariant the
source states for the table holds by the type (R18). -/
structure MapSeg where
  address : Fin bufSize
  mask : TopMask
  deriving DecidableEq, Repr, Inhabited

/-- The SEG a SEGMAP entry stands for (R18). -/
def MapSeg.seg (m : MapSeg) : Seg := ⟨BitVec.ofNat 8 m.address, m.mask.byte⟩

/-- A DIGIT: the seven SEGs of one display position, in label order (R18). -/
structure Digit where
  a : Seg
  b : Seg
  c : Seg
  d : Seg
  e : Seg
  f : Seg
  g : Seg
  deriving DecidableEq, Repr, Inhabited

/-- The seven SEGs in the order A, B, C, D, E, F, G (R18). -/
def Digit.segs (d : Digit) : List Seg := [d.a, d.b, d.c, d.d, d.e, d.f, d.g]

/-- NUL_DIGIT: seven NUL_SEGs (R8, R18). -/
def Digit.nul : Digit := ⟨.nul, .nul, .nul, .nul, .nul, .nul, .nul⟩

/-- The configured digit positions, left to right: N is 2 or 3 (R17). -/
inductive Bindings where
  | two (d0 d1 : Digit)
  | three (d0 d1 d2 : Digit)
  deriving DecidableEq, Repr, Inhabited

/-- DIGIT[0..N-1], left to right (R17). -/
def Bindings.slots : Bindings → List Digit
  | .two d0 d1 => [d0, d1]
  | .three d0 d1 d2 => [d0, d1, d2]

/-- N, the configured digit count (R17). -/
def Bindings.count (b : Bindings) : Nat := b.slots.length

/-- DIGIT[k]: NUL_DIGIT for k >= N (R17). -/
def Bindings.digit (b : Bindings) (k : Nat) : Digit := b.slots.getD k .nul

/-- CFG, the display configuration (R17). `hasDp` is inert: no rule reads it (D21). -/
structure Display where
  digits : Bindings
  hasDp : Bool
  deriving DecidableEq, Repr, Inhabited

/-- The three named delays, of which the source gives no number and which no rule depends on (R5, R77). -/
structure Timing where
  strobeLow : Nat
  csAssert : Nat
  blHold : Nat
  deriving DecidableEq, Repr, Inhabited

/-- The construction-time constants of the block (R14, R25): fixed for a whole run, written by no operation. -/
structure Params where
  addrField : AddrField
  opcodes : Catalog
  rom : Vector Pattern romSize
  segMap : List (SegName × MapSeg)
  display : Display
  hasBacklight : Bool
  /-- INT_W, the width of the integer operand of DISPINT and DISPHEX (R5, D15). -/
  intW : Nat
  timing : Timing
  deriving DecidableEq, Repr, Inhabited

namespace Config

/-! The constants below have no value: they stand for what the spec leaves open, so no proof can depend on it. -/

/-- The values of the seven command opcodes (D11, OPEN). DESIGN CHOICE, log entry 9. -/
opaque opcodes : Catalog

/-- The ROM entries that 42_char_rom.md R111 does not pin (D12, OPEN). DESIGN CHOICE, log entry 8. -/
opaque romEntry : Nat → Pattern

/-- The segment map (D13, OPEN). DESIGN CHOICE, log entry 9. -/
opaque segMap : List (SegName × MapSeg)

/-- N and the digit bindings (D13, OPEN). DESIGN CHOICE, log entry 9. -/
opaque digits : Bindings

/-- The inert decimal-point flag (D21). DESIGN CHOICE, log entry 9. -/
opaque hasDp : Bool

/-- Whether the BL line exists (D18). DESIGN CHOICE, log entry 9. -/
opaque hasBacklight : Bool

/-- The three delays (D14, OPEN). DESIGN CHOICE, log entry 9. -/
opaque timing : Timing

/-- The contents of each buffer byte after reset (10_state.md R24, D10, U2). DESIGN CHOICE, log entry 2. -/
opaque resetByte : Nat → Byte

/-- The level of DATA after reset (R24, U4). DESIGN CHOICE, log entry 3. -/
opaque resetData : Bool

/-- The level of BL after reset (R24, D18, U4). DESIGN CHOICE, log entry 3. -/
opaque resetBl : Bool

/-- The free value of draw number n: what RDBYTE returns for an address above 31 (41_segment_buffer.md R93, D9).
DESIGN CHOICE, log entry 5. -/
opaque drawByte : Nat → Byte

end Config

end Sys2Proof
end

