-- ==== Sys2Proof/Machine/CharTable.lean ====
section
/-! DEFINITION. Machine/CharTable.lean: the contents of the character ROM that the spec gives (42_char_rom.md R111) and
the default table it supplies for use where a concrete one is needed (R113). -/

namespace Sys2Proof.Machine

/-- The four entries the source gives (R111): '0', '8', space, 'A'. -/
def pinnedEntries : List (Nat × Pattern) :=
  [(0x30, 0b1111110), (0x38, 0b1111111), (0x20, 0b0000000), (0x41, 0b1110111)]

/-- A table with some entries replaced. -/
def withEntries (rom : Vector Pattern romSize) (entries : List (Nat × Pattern)) : Vector Pattern romSize :=
  entries.foldl (fun r e => r.setIfInBounds e.1 e.2) rom

/-- The ROM of the block as built: the four pinned entries, every other one open (R111, R113, D12; log entry 8). -/
def openRom : Vector Pattern romSize :=
  withEntries (Vector.ofFn fun c => Config.romEntry c.val) pinnedEntries

/-- The listed entries of `ROM_DEFAULT` (R113); fourteen are general knowledge, not the source's. -/
def defaultEntries : List (Nat × Pattern) :=
  [(0x20, 0x00), (0x2D, 0x01),
   (0x30, 0x7E), (0x31, 0x30), (0x32, 0x6D), (0x33, 0x79), (0x34, 0x33),
   (0x35, 0x5B), (0x36, 0x5F), (0x37, 0x70), (0x38, 0x7F), (0x39, 0x7B),
   (0x41, 0x77), (0x42, 0x1F), (0x43, 0x4E), (0x44, 0x3D), (0x45, 0x4F), (0x46, 0x47)]

/-- `ROM_DEFAULT` (R113): every code not listed maps to 0. Used by the tests only. -/
def romDefault : Vector Pattern romSize :=
  withEntries (Vector.replicate romSize 0) defaultEntries

end Sys2Proof.Machine
end

