-- ==== Sys2Proof/Machine/State.lean ====
section
/-! DEFINITION. Machine/State.lean: the state of the block (10_state.md R10, R11, R19), its construction-time constants
(R25), what an observer and the host see of it (R13, R20), the reasons a step can stop, and the state after reset (R24). -/

namespace Sys2Proof.Machine

/-- The output lines (R19). -/
inductive Line where
  | cs | clk | data | bl
  deriving DecidableEq, Repr

/-- The 1-bit output latches, true = high (R19). `bl` means something only where `HAS_BACKLIGHT` holds (R10). -/
structure Lines where
  cs : Bool
  clk : Bool
  data : Bool
  bl : Bool
  deriving DecidableEq, Repr

/-- One element of the line trace: a line driven to a level (R20). -/
structure LineEvent where
  line : Line
  level : Bool
  deriving DecidableEq, Repr

/-- What the host can present: bits, of which the block reads a host-port word only, or an operation by its operands, which
is the normative form and the only one for operands the word cannot carry (30_encoding.md R51, R54; log entry 10). -/
inductive Request where
  | packet (p : Packet)
  | call (i : Instr)
  deriving DecidableEq, Repr

/-- The state of the block, with its constants and its observation. -/
structure State where
  /-- BUF[0..31] (R11). -/
  buf : Vector Byte bufSize
  /-- The output latches (R19). -/
  lines : Lines
  /-- The construction-time constants (R25), written by no operation (log entry 1). -/
  params : Params
  /-- The line trace since reset, NEWEST FIRST (R20; log entry 12); `State.lineTrace` is it in order. -/
  events : List LineEvent
  /-- What the last completed operation returned to the host (R13; log entry 11). -/
  reply : Option Byte
  /-- The operations the host has yet to issue, the next one first (R181; log entry 10). -/
  pending : List Request
  /-- How many free values have been drawn (R93; log entry 5). -/
  draws : Nat
  deriving DecidableEq, Repr

/-- Why the block stops with a fault: never. "The block raises no exception of any kind" (60_exceptions.md R140), so this
type has no constructor; that is safe, since no step can then stop in one. -/
inductive Fault where
  deriving DecidableEq, Repr

/-- Why a request has no meaning. No operation of the block is refused; the last is raised at the host port. -/
inductive Refusal where
  /-- Raised by an arm of `exec` for an instruction with no meaning yet (none is left). Safe. -/
  | notModelled (mnemonic : String)
  /-- Raised at the host port for a DISPINT or DISPHEX WORD when INT_W is not 16: "the word is not defined for those two"
  (30_encoding.md R54). Safe: the model stops where the spec gives no meaning; the operation itself runs when called. -/
  | intWordUndefined (intW : Nat)
  deriving DecidableEq, Repr

/-- The latch levels after reset: CS and CLK high, DATA and BL unspecified (R24, D4, D18; log entries 3 and 4). -/
def Lines.atReset : Lines := ⟨true, true, Config.resetData, Config.resetBl⟩

/-- The constants the block is built with: the spec's decisions for ADDR_FIELD (D1) and INT_W (D15), the four pinned ROM
entries (R111), and everything else open (R25; log entries 6 to 9). -/
def builtParams : Params where
  addrField := .top6
  opcodes := Config.opcodes
  rom := openRom
  segMap := Config.segMap
  display := ⟨Config.digits, Config.hasDp⟩
  hasBacklight := Config.hasBacklight
  intW := 16
  timing := Config.timing

/-- The block right after it is created (R24, 70_reset_and_hazards.md R160): the buffer unspecified, byte by byte. -/
def State.reset : State where
  buf := Vector.ofFn fun a => Config.resetByte a.val
  lines := .atReset
  params := builtParams
  events := []
  reply := none
  pending := []
  draws := 0

end Sys2Proof.Machine
end

