-- ==== Sys2Proof/Machine/Operands.lean ====
section
/-! DEFINITION. Machine/Operands.lean: how operands are assembled: the address field (30_encoding.md R56), the top nibble
(R57), the integer operand and its text (43_digit_composer.md R131), and the padding of a string (R122). -/

namespace Sys2Proof.Machine

/-- `ADDR_FIELD(address)` (R56): the address shifted left by 2 in an 8-bit register, and six bits of that register. -/
def addrField (f : AddrField) (address : Byte) : AddrBits :=
  let sh : Byte := address <<< 2
  match f with
  | .top6 => sh.extractLsb' 2 6
  | .low6 => sh.extractLsb' 0 6

/-- "The top nibble" of a byte, `v[7:4]` (R6, R57). -/
def topNibble (v : Byte) : Nibble := v.extractLsb' 4 4

/-- The code of a space (R122). -/
def space : Byte := 0x20

/-- The padding phase: the text rendered for a string on N digits (R122). -/
def pad (n : Nat) (text : List Byte) : List Byte :=
  match text.length with
  | 1 => List.replicate (n - 1) space ++ text
  | 2 => if n = 2 then text else space :: text
  | 3 => text
  | _ => [space, space, space]

/-- The integer operand as INT_W bits hold it: the two's-complement value of its low INT_W bits (R55; log entry 7).
A value in the range of INT_W bits is itself. -/
def intOperand (intW : Nat) (i : Int) : Int := i.bmod (2 ^ intW)

/-- The digits of a number in a base, most significant first, at most `fuel` of them; none for 0. -/
def digitsOf (base : Nat) : Nat → Nat → List Nat
  | 0, _ => []
  | fuel + 1, n => if n = 0 then [] else digitsOf base fuel (n / base) ++ [n % base]

/-- The code of a digit: '0' to '9', then 'A' to 'F' (R131). -/
def digitCode (d : Nat) : Byte := if d < 10 then BitVec.ofNat 8 (0x30 + d) else BitVec.ofNat 8 (0x41 + (d - 10))

/-- The text of a number in a base: "0" for 0, else its digits without leading zeros (R131). -/
def natText (base n : Nat) : List Byte :=
  if n = 0 then [0x30] else (digitsOf base n n).map digitCode

/-- `dec(i)` (R131): a minus sign and the exact magnitude where `i` is negative. -/
def decText (i : Int) : List Byte :=
  if i < 0 then 0x2D :: natText 10 i.natAbs else natText 10 i.natAbs

/-- `hex(i)` (R131): of the two's-complement pattern of INT_W bits where `i` is negative. -/
def hexText (intW : Nat) (i : Int) : List Byte :=
  if 0 ≤ i then natText 16 i.toNat else natText 16 (i + 2 ^ intW).toNat

end Sys2Proof.Machine
end

