-- ==== Sys2Proof/Machine/Ops.lean ====
section
/-! DEFINITION. Machine/Ops.lean: the named operations over the output lines and the buffer, from the spec's pseudocode
primitives (00_scope.md R7, 40_bus_encoder.md R70, R71, 41_segment_buffer.md R96).

Taking an exception and returning from one: the spec describes neither, because there is neither. "The block raises no
exception of any kind" (60_exceptions.md R140), "There is no trap entry" (R148), "There is no trap return instruction"
(R149). So this file holds no such operation. -/

namespace Sys2Proof.Machine

/-- The level of one latch (R19). -/
def Lines.get (ls : Lines) : Line → Bool
  | .cs => ls.cs
  | .clk => ls.clk
  | .data => ls.data
  | .bl => ls.bl

/-- The latches after one of them is set (R19: the others keep their levels). -/
def Lines.put (ls : Lines) (e : LineEvent) : Lines :=
  match e.line with
  | .cs => { ls with cs := e.level }
  | .clk => { ls with clk := e.level }
  | .data => { ls with data := e.level }
  | .bl => { ls with bl := e.level }

/-- The line trace, in the order the events happened (10_state.md R20). -/
def State.lineTrace (s : State) : List LineEvent := s.events.reverse

/-- `drive(L, v)`: set the latch and append the event to the line trace (R7). -/
def State.drive (line : Line) (level : Bool) (s : State) : State :=
  { s with lines := s.lines.put ⟨line, level⟩, events := ⟨line, level⟩ :: s.events }

/-- `wait(T)`: a delay of at least `T`, with "no effect on state or trace" (R7, R77; log entry 15). -/
def State.wait (_delay : Nat) (s : State) : State := s

/-- `emit_bit(b)`: the bit cycle (40_bus_encoder.md R70). -/
def State.emitBit (b : Bool) (s : State) : State :=
  (((s.drive .data b).drive .clk false).wait s.params.timing.strobeLow).drive .clk true

/-- The bit cycles of a frame, in transmission order (R71). -/
def State.emitBits : List Bool → State → State
  | [], s => s
  | b :: bits, s => State.emitBits bits (s.emitBit b)

/-- `send_frame(bits)`: chip-select low, the bit cycles, chip-select high (R71). -/
def State.sendFrame (bits : List Bool) (s : State) : State :=
  (((s.drive .cs false).emitBits bits).wait s.params.timing.csAssert).drive .cs true

/-- `BUF[a]`, or nothing where the address is 32 or more (41_segment_buffer.md R96, on the full byte). -/
def State.readByte? (address : Byte) (s : State) : Option Byte := s.buf[address.toNat]?

/-- `BUF[a] <- v`, silently ignored where the address is 32 or more (R96). -/
def State.writeByte (address value : Byte) (s : State) : State :=
  if h : address.toNat < bufSize then { s with buf := s.buf.set address.toNat value h } else s

/-- OR the mask into the byte at the SEG's address, with the bounds check (R90, R96). -/
def State.setBit (seg : Seg) (s : State) : State :=
  match s.readByte? seg.address with
  | none => s
  | some old => s.writeByte seg.address (old ||| seg.mask)

/-- AND-NOT the mask into the byte at the SEG's address, with the bounds check (R91, R96). -/
def State.clrBit (seg : Seg) (s : State) : State :=
  match s.readByte? seg.address with
  | none => s
  | some old => s.writeByte seg.address (old &&& ~~~seg.mask)

/-- Set every buffer byte (R92; the order of the 32 writes is not observable). -/
def State.fillBuf (value : Byte) (s : State) : State :=
  { s with buf := Vector.replicate bufSize value }

/-- The buffer addresses 0 to 31 in ascending order (R95). -/
def bufAddresses : List Byte := (List.range bufSize).map fun a => BitVec.ofNat 8 a

/-- Take the next free value (R8 "Draw", D9; log entry 5). -/
def State.draw (s : State) : Byte × State := (Config.drawByte s.draws, { s with draws := s.draws + 1 })

end Sys2Proof.Machine
end

