-- ==== Sys2Proof/Machine/Flags.lean ====
section
/-! DEFINITION. Machine/Flags.lean: there are no flags and no condition codes: "No operation sets a status flag, a busy bit,
an error bit or a condition code" (10_state.md R13). What an operation reports is at most one value, returned to the host
when it completes (R13, 30_encoding.md R54). -/

namespace Sys2Proof.Machine

/-- The operation completes and returns `value` to the host, or nothing (R13, R54; log entry 11). -/
def State.answer (value : Option Byte) (s : State) : State := { s with reply := value }

end Sys2Proof.Machine
end

