-- ==== Sys2Proof/Machine/Bus.lean ====
section
/-! DEFINITION. Machine/Bus.lean: the operations of the bit-serial protocol encoder that drive output lines: WRCMD, WRADDR,
BLSET (40_bus_encoder.md R72 to R75); and the two wire-frame rows, which are no operations (30_encoding.md R50, R51). -/

namespace Sys2Proof.Machine

/-- `WRCMD(opcode)`: one command frame (R72). -/
def State.writeCommand (opcode : Byte) (s : State) : State := s.sendFrame (cmdFrame opcode)

/-- `WRADDR(address, nibble)`: one data frame, with no bounds check on the address (R73, R74). -/
def State.writeAddress (address : Byte) (nibble : Nibble) (s : State) : State :=
  s.sendFrame (dataFrame (addrField s.params.addrField address) nibble)

/-- `BLSET(level)`: drives BL where the line exists, else ignored (R75). -/
def State.setBacklight (level : Bool) (s : State) : State :=
  if s.params.hasBacklight then (s.drive .bl level).wait s.params.timing.blHold else s

/-- WRCMD (R72). -/
def execWrcmd (opcode : Byte) (s : State) : Host.Outcome State Fault Refusal :=
  .next ((s.writeCommand opcode).answer none)

/-- WRADDR (R73, R74). -/
def execWraddr (address : Byte) (nibble : Nibble) (s : State) : Host.Outcome State Fault Refusal :=
  .next ((s.writeAddress address nibble).answer none)

/-- BLSET (R75). -/
def execBlset (level : Bool) (s : State) : Host.Outcome State Fault Refusal :=
  .next ((s.setBacklight level).answer none)

/-- FRAME.CMD: what WRCMD emits (R72), and no operation: a command frame presented to the block is not decoded, and nothing
happens (R50, R51; log entry 13). -/
def execFrameCmd (_opcode : Byte) (s : State) : Host.Outcome State Fault Refusal :=
  .next (s.answer none)

/-- FRAME.DATA: what WRADDR and FLUSH emit (R73, R95), and no operation: a data frame presented to the block is not decoded,
and nothing happens (R50, R51; log entry 13). -/
def execFrameData (_field : AddrBits) (_nibble : Nibble) (s : State) : Host.Outcome State Fault Refusal :=
  .next (s.answer none)

end Sys2Proof.Machine
end

