-- ==== Sys2Proof/Machine/Buffer.lean ====
section
/-! DEFINITION. Machine/Buffer.lean: the operations of the segment-buffer register file: SETBIT, CLRBIT, FILL, RDBYTE,
WRBYTE, FLUSH (41_segment_buffer.md R90 to R96). -/

namespace Sys2Proof.Machine

/-- One step of a flush: send the top nibble that `BUF[a]` has now (R95, 20_memory.md R36 (d)). -/
def State.flushByte (s : State) (address : Byte) : State :=
  match s.readByte? address with
  | none => s
  | some v => s.writeAddress address (topNibble v)

/-- `FLUSH()`: addresses 0 to 31 in ascending order (R95). -/
def State.flushBuf (s : State) : State := bufAddresses.foldl State.flushByte s

/-- SETBIT (R90). -/
def execSetbit (seg : Seg) (s : State) : Host.Outcome State Fault Refusal :=
  .next ((s.setBit seg).answer none)

/-- CLRBIT (R91). -/
def execClrbit (seg : Seg) (s : State) : Host.Outcome State Fault Refusal :=
  .next ((s.clrBit seg).answer none)

/-- FILL (R92). -/
def execFill (value : Byte) (s : State) : Host.Outcome State Fault Refusal :=
  .next ((s.fillBuf value).answer none)

/-- The byte RDBYTE returns and the state it leaves: `BUF[a]`, or a draw where the address is 32 or more (R93, D9). -/
def State.fetchByte (address : Byte) (s : State) : Byte × State :=
  match s.readByte? address with
  | some v => (v, s)
  | none => s.draw

/-- RDBYTE (R93). -/
def execRdbyte (address : Byte) (s : State) : Host.Outcome State Fault Refusal :=
  .next ((s.fetchByte address).2.answer (some (s.fetchByte address).1))

/-- WRBYTE (R94). -/
def execWrbyte (address value : Byte) (s : State) : Host.Outcome State Fault Refusal :=
  .next ((s.writeByte address value).answer none)

/-- FLUSH (R95). -/
def execFlush (s : State) : Host.Outcome State Fault Refusal :=
  .next (s.flushBuf.answer none)

end Sys2Proof.Machine
end

