-- ==== Sys2Proof/Machine/CharRom.lean ====
section
/-! DEFINITION. Machine/CharRom.lean: the one operation that reads the character ROM, PATTERN (42_char_rom.md R110). -/

namespace Sys2Proof.Machine

/-- `patternFor(code)`: the table entry, or 0 where the code is 128 or more; the code is not masked (R110, 30_encoding.md R58). -/
def patternFor (rom : Vector Pattern romSize) (code : Byte) : Pattern := (rom[code.toNat]?).getD 0

/-- PATTERN: the pattern is returned zero-extended to a byte (R110, R54). -/
def execPattern (code : Byte) (s : State) : Host.Outcome State Fault Refusal :=
  .next (s.answer (some ((patternFor s.params.rom code).zeroExtend 8)))

end Sys2Proof.Machine
end

