-- ==== Sys2Proof/Machine/Composer.lean ====
section
/-! DEFINITION. Machine/Composer.lean: the digit composer: DISPSTR, DISPINT, DISPHEX (43_digit_composer.md R120 to R131).
Each is the sequence of CLRBIT, PATTERN and SETBIT the spec gives; none drives a line (R125). -/

namespace Sys2Proof.Machine

/-- Blank one segment, skipping NUL_SEG (R121). -/
def State.blankSeg (s : State) (g : Seg) : State := if g = Seg.nul then s else s.clrBit g

/-- Blank one digit, A to G (R121). -/
def State.blankDigit (s : State) (d : Digit) : State := d.segs.foldl State.blankSeg s

/-- Set one segment where its pattern bit is set, and do nothing where it is clear (R124). -/
def State.lightSeg (s : State) (x : Seg × Bool) : State := if x.2 then s.setBit x.1 else s

/-- Render one character on one digit: pattern bit 6 - j is segment j (R124, R59). -/
def State.renderDigit (s : State) (x : Digit × Byte) : State :=
  (x.1.segs.zip (msbFirst (patternFor s.params.rom x.2))).foldl State.lightSeg s

/-- The blank phase: every configured digit (R121). -/
def State.blankPhase (s : State) : State := s.params.display.digits.slots.foldl State.blankDigit s

/-- The render phase: digit k shows `text[k]`, left to right; further characters are never looked up (R123). -/
def State.renderPhase (text : List Byte) (s : State) : State :=
  (s.params.display.digits.slots.zip text).foldl State.renderDigit s

/-- `DISPSTR(s)`: blank, pad, render, and no flush (R120, R125). -/
def State.displayString (text : List Byte) (s : State) : State :=
  s.blankPhase.renderPhase (pad s.params.display.digits.count text)

/-- DISPSTR (R120). -/
def execDispstr (text : List Byte) (s : State) : Host.Outcome State Fault Refusal :=
  .next ((s.displayString text).answer none)

/-- DISPINT (R129): DISPSTR of the decimal text. -/
def execDispint (i : Int) (s : State) : Host.Outcome State Fault Refusal :=
  .next ((s.displayString (decText (intOperand s.params.intW i))).answer none)

/-- DISPHEX (R130): DISPSTR of the hexadecimal text. -/
def execDisphex (i : Int) (s : State) : Host.Outcome State Fault Refusal :=
  .next ((s.displayString (hexText s.params.intW (intOperand s.params.intW i))).answer none)

end Sys2Proof.Machine
end

