-- ==== Sys2Proof/Machine/Startup.lean ====
section
/-! DEFINITION. Machine/Startup.lean: the composite operation INIT (70_reset_and_hazards.md R163). -/

namespace Sys2Proof.Machine

/-- The six opcodes INIT sends, in order; display off is in the catalog and is not sent (R163, 90_conflicts.md C3). -/
def startupOpcodes (c : Catalog) : List Byte := [c.clockSrc, c.bias, c.sysDis, c.wdtDis, c.sysEn, c.dispOn]

/-- `INIT()`: the six commands, FILL 0, FLUSH (R163). -/
def State.startup (s : State) : State :=
  (((startupOpcodes s.params.opcodes).foldl (fun t opcode => t.writeCommand opcode) s).fillBuf 0).flushBuf

/-- INIT (R163). -/
def execInit (s : State) : Host.Outcome State Fault Refusal :=
  .next (s.startup.answer none)

end Sys2Proof.Machine
end

