-- ==== Sys2Proof/Machine/Dispatch.lean ====
section
/-! DEFINITION. Machine/Dispatch.lean: one arm per operation of 30_encoding.md R50, and one per wire-frame row of
the opcode table, which is no operation (R51). -/

namespace Sys2Proof.Machine

/-- The meaning of one row: an operation, run to completion (10_state.md R12), or a frame, which the block never reads. -/
def exec (i : Instr) (s : State) : Host.Outcome State Fault Refusal :=
  match i with
  | .wrcmd opcode => Sys2Proof.Machine.execWrcmd opcode s
  | .wraddr address nibble => Sys2Proof.Machine.execWraddr address nibble s
  | .setbit seg => Sys2Proof.Machine.execSetbit seg s
  | .clrbit seg => Sys2Proof.Machine.execClrbit seg s
  | .fill value => Sys2Proof.Machine.execFill value s
  | .rdbyte address => Sys2Proof.Machine.execRdbyte address s
  | .wrbyte address value => Sys2Proof.Machine.execWrbyte address value s
  | .flush => Sys2Proof.Machine.execFlush s
  | .pattern code => Sys2Proof.Machine.execPattern code s
  | .blset level => Sys2Proof.Machine.execBlset level s
  | .init => Sys2Proof.Machine.execInit s
  | .dispstr text => Sys2Proof.Machine.execDispstr text s
  | .dispint n => Sys2Proof.Machine.execDispint n s
  | .disphex n => Sys2Proof.Machine.execDisphex n s
  | .frameCmd opcode => Sys2Proof.Machine.execFrameCmd opcode s
  | .frameData field nibble => Sys2Proof.Machine.execFrameData field nibble s

end Sys2Proof.Machine
end

