-- ==== Sys2Proof/Machine/Port.lean ====
section
/-! DEFINITION. Machine/Port.lean: what the block does with one request the host issues (10_state.md R12, 30_encoding.md R54,
R61), and how a table row's word is presented. -/

namespace Sys2Proof.Machine

/-- Whether an operation's word is defined only for INT_W = 16 (R54). -/
def needsIntWord : Instr → Bool
  | .dispint _ => true
  | .disphex _ => true
  | _ => false

/-- Run the operation a word was decoded to: any, but for the word of an integer operation where INT_W is not 16 (R54). -/
def State.runDecoded (i : Instr) (s : State) : Host.Outcome State Fault Refusal :=
  if needsIntWord i && s.params.intW != 16 then .refused (.intWordUndefined s.params.intW) else exec i s

/-- Run one request. A word that decodes to no operation, its `op` being reserved, is ignored: "no state change, no trace
event, nothing returned" (R61 (e)). Frame bits are ignored whatever they are: the block has no input line and never decodes
the wire encoding (00_scope.md R4, R51; log entry 13). -/
def State.issue (r : Request) (s : State) : Host.Outcome State Fault Refusal :=
  match r with
  | .call i => exec i s
  | .packet (.wire _) => .next (s.answer none)
  | .packet (.host w) =>
    match decodeHost w with
    | .ok i => s.runDecoded i
    | .error _ => .next (s.answer none)

/-- The host issues its next operation, and the block runs it to completion; with nothing issued the block is idle "and
loses nothing" (R12, 60_exceptions.md R156; log entry 10). -/
def State.next (s : State) : Host.Outcome State Fault Refusal :=
  match s.pending with
  | [] => .next s
  | r :: rest => State.issue r { s with pending := rest }

/-- The host presents a table row's word as its very next request. -/
def State.present (s : State) (nbits w : Nat) : State :=
  { s with pending := .packet (tablePacket nbits w) :: s.pending }

end Sys2Proof.Machine
end

