-- ==== Sys2Proof/Machine/Step.lean ====
section
/-! DEFINITION. Machine/Step.lean: one step of the machine: one operation, run to completion (10_state.md R12, D17). -/

namespace Sys2Proof.Machine

/-- One step (R12): the host's next request, or idling. -/
def step (s : State) : Host.Outcome State Fault Refusal := s.next

/-- The state with a table row's word presented as the next request: log entry 10. -/
def State.withFetchWord (s : State) (nbits w : Nat) : State := s.present nbits w

end Sys2Proof.Machine
end

