-- ==== Sys2Proof/Machine/Observe.lean ====
section
/-! DEFINITION. Machine/Observe.lean: what an observer on the wires sees: the frames decoded from the line trace (10_state.md
R21), traces equal up to stuttering (R20), and the receiver view (20_memory.md R37). None of it is read by an operation. -/

namespace Sys2Proof.Machine

/-- The observer of R21: the levels it tracks, the bits of the open frame, and the closed frames in order. -/
structure Observer where
  cs : Bool
  clk : Bool
  data : Bool
  bits : List Bool
  frames : List (List Bool)
  deriving DecidableEq, Repr

/-- The observer before any event: the reset levels, no frame (R21, R24). -/
def Observer.atReset : Observer := ⟨true, true, Config.resetData, [], []⟩

/-- One event, as R21 reads it: a fall of CS opens a frame, a rise of CLK while CS is low appends the level of DATA, a rise
of CS closes the frame; BL is skipped. -/
def Observer.see (o : Observer) (e : LineEvent) : Observer :=
  match e.line with
  | .bl => o
  | .data => { o with data := e.level }
  | .clk =>
    { o with clk := e.level, bits := if !o.cs && !o.clk && e.level then o.bits ++ [o.data] else o.bits }
  | .cs =>
    if o.cs && !e.level then { o with cs := false, bits := [] }
    else if !o.cs && e.level then { o with cs := true, bits := [], frames := o.frames ++ [o.bits] }
    else o

/-- The observer after a line trace. -/
def observe (trace : List LineEvent) : Observer := trace.foldl Observer.see .atReset

/-- The frame trace (R21). -/
def State.frames (s : State) : List (List Bool) := (observe s.lineTrace).frames

/-- The canonical events of one bit cycle (40_bus_encoder.md R70). -/
def bitEvents (b : Bool) : List LineEvent := [⟨.data, b⟩, ⟨.clk, false⟩, ⟨.clk, true⟩]

/-- The canonical events of one frame (R71). -/
def frameEvents (bits : List Bool) : List LineEvent :=
  ⟨.cs, false⟩ :: (bits.flatMap bitEvents ++ [⟨.cs, true⟩])

/-- A trace without the events that set a line to the level it already has (R20). -/
def destutter : Lines → List LineEvent → List LineEvent
  | _, [] => []
  | ls, e :: es => if ls.get e.line = e.level then destutter ls es else e :: destutter (ls.put e) es

/-- Equivalence of traces: equal after deleting the stuttering events (R20). -/
def TraceEquiv (t u : List LineEvent) : Prop := destutter .atReset t = destutter .atReset u

/-- The receiver view: RX, one nibble or nothing per 6-bit address, and RXCMD (20_memory.md R37; log entry 16). -/
structure Receiver where
  rx : Vector (Option Nibble) 64
  cmds : List Byte
  deriving DecidableEq, Repr

/-- The receiver view of an empty frame trace (R37). -/
def Receiver.empty : Receiver := ⟨Vector.replicate 64 none, []⟩

/-- One frame, as R37 reads it; "any other frame cannot occur". -/
def Receiver.accept (r : Receiver) (bits : List Bool) : Receiver :=
  match decodeFrame bits with
  | .ok (.frameCmd opcode) => { r with cmds := r.cmds ++ [opcode] }
  | .ok (.frameData field nibble) => { r with rx := r.rx.setIfInBounds field.toNat (some nibble) }
  | _ => r

/-- The receiver view of a frame trace (R37). -/
def receive (frames : List (List Bool)) : Receiver := frames.foldl Receiver.accept .empty

/-- The receiver view of the block's frame trace (R37). -/
def State.receiver (s : State) : Receiver := receive s.frames

/-- RX[field] (R37). -/
def Receiver.nibbleAt (r : Receiver) (field : AddrBits) : Option Nibble := (r.rx[field.toNat]?).getD none

end Sys2Proof.Machine
end

