-- ==== Sys2Proof/Safety.lean ====
section
/-! DEFINITION. Safety.lean: the terms claims are stated in: what an operation leaves unchanged, the quiescent state of the
lines (10_state.md R26), and the laws of the constants (43_digit_composer.md R131, 42_char_rom.md R111). -/

namespace Sys2Proof.Machine

/-- Every buffer byte reads as before. -/
def SameBuf (s t : State) : Prop := ∀ a : Byte, t.readByte? a = s.readByte? a

/-- No latch moved and nothing was appended to the line trace. -/
def SameLines (s t : State) : Prop := t.lines = s.lines ∧ t.lineTrace = s.lineTrace

/-- The constants, the host's further requests and the draws are as before. -/
def SameRest (s t : State) : Prop := t.params = s.params ∧ t.pending = s.pending ∧ t.draws = s.draws

/-- A frame the block can produce: 11 bits beginning `100`, or 13 bits beginning `101` (10_state.md R21). -/
def LegalFrame (bits : List Bool) : Prop :=
  (bits.length = 11 ∧ bits.take 3 = tagCmd) ∨ (bits.length = 13 ∧ bits.take 3 = tagData)

/-- A frame that an operation of 30_encoding.md R50 sends: a command frame, or a data frame whose field is the ADDR_FIELD of
some address (40_bus_encoder.md R72, R73). -/
def SentFrame (p : Params) (bits : List Bool) : Prop :=
  (∃ opcode, bits = cmdFrame opcode) ∨ ∃ address nibble, bits = dataFrame (addrField p.addrField address) nibble

/-- The latches hold what the line trace last drove them to (R19: "A latch keeps its level until the next drive to it"). -/
def TraceExplainsLines (s : State) : Prop := s.lines = s.lineTrace.foldl Lines.put .atReset

/-- The quiescent invariant (R26): CS and CLK high, the latches as the trace left them, and the trace made of complete
frames, each one the block can produce. -/
def Quiescent (s : State) : Prop :=
  s.lines.cs = true ∧ s.lines.clk = true ∧ TraceExplainsLines s ∧ (observe s.lineTrace).bits = [] ∧
    ∀ f ∈ s.frames, LegalFrame f

/-- The laws the spec puts on the constants: INT_W a multiple of 4 and at least 16 (43_digit_composer.md R131), and the four
ROM entries (42_char_rom.md R111). -/
def LawfulParams (p : Params) : Prop :=
  p.intW % 4 = 0 ∧ 16 ≤ p.intW ∧
    patternFor p.rom 0x30 = 0b1111110 ∧ patternFor p.rom 0x38 = 0b1111111 ∧
    patternFor p.rom 0x20 = 0 ∧ patternFor p.rom 0x41 = 0b1110111

/-- The bound segments: the entries of DIGIT[0..N-1] that are not NUL_SEG, in order (D13). -/
def boundSegs (p : Params) : List Seg :=
  (p.display.digits.slots.flatMap Digit.segs).filter (· ≠ Seg.nul)

/-- The well-formedness of a configuration that a claim may assume and must state (D13): addresses in range, masks of the
four, entries pairwise distinct. -/
def WellBound (p : Params) : Prop :=
  (∀ g ∈ boundSegs p, g.address.toNat < bufSize ∧ g.mask ∈ [TopMask.x80, .x40, .x20, .x10].map TopMask.byte) ∧
    (boundSegs p).Nodup

/-- Operations one after another, each run to completion (20_memory.md R36 (a)), stopping at the first that does not complete. -/
def runList : List Instr → State → Host.Outcome State Fault Refusal
  | [], s => .next s
  | i :: is, s =>
    match exec i s with
    | .next t => runList is t
    | .fault r => .fault r
    | .refused r => .refused r

/-- Every host-port word with this `op` is read as this operation (30_encoding.md R54, R60). -/
def HostOp (op : BitVec 4) (read : HostWord → Instr) : Prop := ∀ w, wordOp w = op → decode (.host w) = .ok (read w)

/-- The integers that a host-port word can carry, for the two operations that take one (R54); any other operation. -/
def fitsPort : Instr → Bool
  | .dispint i => intFitsWord i
  | .disphex i => intFitsWord i
  | _ => true

/-- A value of INT_W bits, two's complement (R55). -/
def InIntRange (intW : Nat) (i : Int) : Prop := -(2 ^ (intW - 1)) ≤ i ∧ i < 2 ^ (intW - 1)

/-- The operations that drive a line: the command and data frames, the flush, the startup sequence, the backlight. -/
def drivesLines : Instr → Bool
  | .wrcmd _ => true
  | .wraddr _ _ => true
  | .flush => true
  | .blset _ => true
  | .init => true
  | _ => false

/-- The operations that never write the buffer (10_state.md R11, R93), and the two wire-frame rows, which do nothing (R51). -/
def leavesBuf : Instr → Bool
  | .wrcmd _ => true
  | .wraddr _ _ => true
  | .flush => true
  | .pattern _ => true
  | .blset _ => true
  | .rdbyte _ => true
  | .frameCmd _ => true
  | .frameData _ _ => true
  | _ => false

/-- Two states that differ in the bottom nibbles of their buffers and in the last answer at most (30_encoding.md R57). -/
def TopAgree (s u : State) : Prop :=
  u.lines = s.lines ∧ u.lineTrace = s.lineTrace ∧ u.params = s.params ∧ u.pending = s.pending ∧ u.draws = s.draws ∧
    ∀ a : Byte, (u.readByte? a).map topNibble = (s.readByte? a).map topNibble

/-- SEG j (A to G) of DIGIT[k] (R18). -/
def bindingAt (p : Params) (k j : Nat) : Seg := (p.display.digits.digit k).segs.getD j .nul

/-- Whether pattern bit 6 - j of the character that digit k shows is set (43_digit_composer.md R123, R124). -/
def showsBit (p : Params) (text : List Byte) (k j : Nat) : Bool :=
  (patternFor p.rom ((pad p.display.digits.count text).getD k space)).getLsbD (6 - j)

/-- The primitive operations a DISPSTR expands to, by the pseudocode of R120: digit by digit and segment by segment. -/
def expansion (p : Params) (text : List Byte) : List Instr :=
  ((List.range p.display.digits.count).flatMap fun k => (List.range 7).flatMap fun j =>
      if bindingAt p k j ≠ .nul then [.clrbit (bindingAt p k j)] else []) ++
    (List.range p.display.digits.count).flatMap fun k => (List.range 7).flatMap fun j =>
      if showsBit p text k j then [.setbit (bindingAt p k j)] else []

/-- The value of a digit's code: '0' to '9', 'A' to 'F' (R131). -/
def digitValue (c : Byte) : Nat := if 0x41 ≤ c.toNat then c.toNat - 0x41 + 10 else c.toNat - 0x30

/-- The number a text of digits stands for, most significant first. -/
def textValue (base : Nat) (text : List Byte) : Nat := text.foldl (fun v c => base * v + digitValue c) 0

/-- The codes of the digits of a base (R131). -/
def IsDigitOf (base : Nat) (c : Byte) : Prop :=
  (0x30 ≤ c.toNat ∧ c.toNat ≤ 0x39 ∨ 0x41 ≤ c.toNat ∧ c.toNat ≤ 0x46) ∧ digitValue c < base

/-- The bits the receiver view shows at the wire address of a segment's byte: the nibble a receiver holds there, as the top
nibble of a byte, meets the mask (20_memory.md R37, 30_encoding.md R57). -/
def receiverShows (s : State) (g : Seg) : Prop :=
  ∃ n, s.receiver.nibbleAt (addrField s.params.addrField g.address) = some n ∧ (n ++ (0 : BitVec 4)) &&& g.mask ≠ 0

end Sys2Proof.Machine
end

