-- ==== Sys2Proof/Certificates/Slice0/Obligations.lean ====
section
/-! DEFINITION. Certificates/Slice0/Obligations.lean: the statements for the provers. -/

open Sys2Proof Sys2Proof.Machine

/-! ## Decoding, the port, the step -/

/-- 10_state.md R12, 30_encoding.md R54: the step runs the operation presented, called or as a packet, and pops it from the
requests (log entry 10); with no request the block idles. A packet that is a frame runs its row's meaning, which is to do
nothing (R51; log entry 13). -/
def Obligations.StepRunsThePresentedOperation : Prop :=
  (∀ s : State, s.pending = [] → step s = .next s) ∧
  (∀ (s : State) i rest, s.pending = .call i :: rest → step s = exec i { s with pending := rest }) ∧
  (∀ (s : State) p i rest, s.pending = .packet p :: rest → decode p = .ok i → WellFormed i = true →
    (needsIntWord i = false ∨ s.params.intW = 16) → step s = exec i { s with pending := rest })

/-- 95_test_vectors.md P1 to P5 and V8, V13: words written out in the spec decode to the rows they stand for. -/
def Obligations.SpecWordsDecode : Prop :=
  decode (.host 0xB0000000) = .ok .init ∧ decode (.host 0xC1350000) = .ok (.dispstr [0x35]) ∧
  decode (.host 0x500000FF) = .ok (.fill 0xFF) ∧ decode (.host 0xE00000FF) = .ok (.disphex 255) ∧
  decode (.host 0x2000070F) = .ok (.wraddr 7 0xF) ∧ decode (.host 0x30001F80) = .ok (.setbit ⟨31, 0x80⟩) ∧
  decode (.host 0x7000C8AA) = .ok (.wrbyte 200 0xAA) ∧ decode (.host 0xD000FFFB) = .ok (.dispint (-5)) ∧
  decode (.wire [true, false, false, true, false, true, false, false, true, false, true]) = .ok (.frameCmd 0xA5) ∧
  decode (.wire [true, false, true, false, false, false, true, false, true, true, true, false, false]) =
    .ok (.frameData 5 0xC)

/-- 30_encoding.md R52 to R54: no bit of an encoding is dropped. -/
def Obligations.DecodeOfEncode : Prop := ∀ i : Instr, WellFormed i = true → decode (encode i) = .ok i

/-- 30_encoding.md R54, R60, R62: what the decoder reads is well formed; exactly the words with `op` 0x0 or 0xF and the bit
lists that are no frame are rejected. -/
def Obligations.DecodeIsTotalAndWellFormed : Prop :=
  (∀ p i, decode p = .ok i → WellFormed i = true) ∧
  (∀ w, (∃ i, decode (.host w) = .ok i) ↔ (wordOp w ≠ 0x0 ∧ wordOp w ≠ 0xF)) ∧
  (∀ bits, (∃ i, decode (.wire bits) = .ok i) ↔ LegalFrame bits)

/-- 30_encoding.md R54 ("every L > 3 behaves alike"): the word an operation is given means what the operation means, also for
a string that the word cannot carry whole. -/
def Obligations.PortWordKeepsTheMeaning : Prop :=
  ∀ (i : Instr) (s : State), fitsPort i = true → ∃ j, decode (encode i) = .ok j ∧ exec j s = exec i s

/-- 30_encoding.md section 6, R61 (e) (decision D16): a reserved word changes nothing and returns nothing. -/
def Obligations.ReservedOpsAreIgnored : Prop :=
  ∀ (s : State) w rest, s.pending = .packet (.host w) :: rest → (wordOp w = 0x0 ∨ wordOp w = 0xF) →
    ∃ t, step s = .next t ∧ SameBuf s t ∧ SameLines s t ∧ t.params = s.params ∧ t.draws = s.draws ∧
      t.pending = rest ∧ t.reply = none

/-- 60_exceptions.md section 1, 30_encoding.md section 3: the only stop of the machine (log entry 7), refusing by name: an
integer WORD when INT_W is not 16. -/
def Obligations.StepStopsOnlyAtThePort : Prop :=
  ∀ s : State,
    (∃ t, step s = .next t) ∨
    (∃ w rest, s.pending = .packet (.host w) :: rest ∧ (wordOp w = 0xD ∨ wordOp w = 0xE) ∧ s.params.intW ≠ 16 ∧
      step s = .refused (.intWordUndefined s.params.intW))

/-- 60_exceptions.md R140: "Every operation, with every operand value, completes and leaves the block ready for the next." -/
def Obligations.EveryOperationCompletes : Prop := ∀ (i : Instr) (s : State), ∃ t, exec i s = .next t

/-- 10_state.md R13: the only values returned to the host are the byte of RDBYTE and the 7-bit pattern of PATTERN. -/
def Obligations.OnlyReadsReturnValues : Prop :=
  ∀ (i : Instr) (s t : State) v, exec i s = .next t → t.reply = some v →
    (∃ a, i = .rdbyte a) ∨ ((∃ c, i = .pattern c) ∧ v.toNat < 128)

/-! ## Reset and the invariants -/

/-- 10_state.md section 9 (R24, decision D4; log entry 4): CS and CLK high, traces empty, nothing returned; and, by log entries
6 to 8, TOP6, INT_W = 16 and the four pinned ROM entries. -/
def Obligations.ResetLeavesTheLinesIdle : Prop :=
  State.reset.lines.cs = true ∧ State.reset.lines.clk = true ∧ State.reset.lineTrace = [] ∧ State.reset.frames = [] ∧
    State.reset.reply = none ∧ State.reset.params.addrField = .top6 ∧ State.reset.params.intW = 16 ∧
    LawfulParams State.reset.params

/-- 10_state.md section 10: the quiescent invariant holds after reset. That CS and CLK are high there is the model's choice of
log entry 4 (decision D4: a boot requirement of the platform). -/
def Obligations.ResetIsQuiescent : Prop := Quiescent State.reset

/-- 10_state.md section 10 (the quiescent invariant, after every operation) and section 7 (every frame is 11 bits beginning
`100` or 13 bits beginning `101`; a latch keeps its level until the next drive to it). -/
def Obligations.StepKeepsQuiescence : Prop := ∀ s t : State, Quiescent s → step s = .next t → Quiescent t

/-- 10_state.md R25: the parameters are never changed by any operation. -/
def Obligations.NoOperationChangesAParameter : Prop := ∀ s t : State, step s = .next t → t.params = s.params

/-- 43_digit_composer.md section 4 and 42_char_rom.md section 2: the laws of the parameters hold at reset and every step keeps
them (the INT_W part by log entry 7). -/
def Obligations.ParameterLawsHoldThroughout : Prop :=
  LawfulParams State.reset.params ∧ ∀ s t : State, LawfulParams s.params → step s = .next t → LawfulParams t.params

/-- 10_state.md section 7: the trace is the ordered list of every event since reset, so a step only appends to it, and the
latches move exactly as the appended events say. -/
def Obligations.LineTraceOnlyGrows : Prop :=
  ∀ s t : State, step s = .next t →
    ∃ es, t.lineTrace = s.lineTrace ++ es ∧ t.lines = es.foldl Lines.put s.lines

/-! ## The bus -/

/-- 30_encoding.md section 2: the bits WRCMD and WRADDR hand to `send_frame`, in transmission order. That WRADDR sends its
nibble operand as given, and sends for an address of 32 or more too, is the model's choice of log entry 6 (decisions D7, D8). -/
def Obligations.WireFrameBits : Prop :=
  (∀ (o : Byte) (s : State), s.writeCommand o =
    s.sendFrame [true, false, false, o.getLsbD 7, o.getLsbD 6, o.getLsbD 5, o.getLsbD 4, o.getLsbD 3, o.getLsbD 2,
      o.getLsbD 1, o.getLsbD 0]) ∧
  (∀ (a : Byte) (n : Nibble) (s : State), s.writeAddress a n =
    let af := addrField s.params.addrField a
    s.sendFrame [true, false, true, af.getLsbD 5, af.getLsbD 4, af.getLsbD 3, af.getLsbD 2, af.getLsbD 1, af.getLsbD 0,
      n.getLsbD 3, n.getLsbD 2, n.getLsbD 1, n.getLsbD 0])

/-- 40_bus_encoder.md section 2, with the bit cycle of section 1 (decisions D2, D3; log entry 19): WRCMD in every state, the
events it appends, the latches it leaves, its frame, and what it leaves unchanged. -/
def Obligations.WrcmdSendsOneCommandFrame : Prop :=
  HostOp 0x1 (fun w => .wrcmd (wordB0 w)) ∧
  ∀ (o : Byte) (s : State), ∃ t, exec (.wrcmd o) s = .next t ∧
    t.lineTrace = s.lineTrace ++ frameEvents (cmdFrame o) ∧
    t.lines = { s.lines with cs := true, clk := true, data := o.getLsbD 0 } ∧
    (Quiescent s → t.frames = s.frames ++ [cmdFrame o]) ∧ SameBuf s t ∧ SameRest s t ∧ t.reply = none

/-- 40_bus_encoder.md section 3 (decisions D7, D8; log entries 6 and 19): WRADDR for every address, in range or not. -/
def Obligations.WraddrSendsOneDataFrame : Prop :=
  HostOp 0x2 (fun w => .wraddr (wordB1 w) (wordNibble w)) ∧
  ∀ (a : Byte) (n : Nibble) (s : State), ∃ t, exec (.wraddr a n) s = .next t ∧
    t.lineTrace = s.lineTrace ++ frameEvents (dataFrame (addrField s.params.addrField a) n) ∧
    t.lines = { s.lines with cs := true, clk := true, data := n.getLsbD 0 } ∧
    (Quiescent s → t.frames = s.frames ++ [dataFrame (addrField s.params.addrField a) n]) ∧
    SameBuf s t ∧ SameRest s t ∧ t.reply = none

/-- 30_encoding.md section 4 (decision D1; log entry 6): under TOP6 the field is the low six address bits, so the 32 buffer
addresses have 32 distinct fields; under LOW6 it is four times the low four, so 16 to 31 alias 0 to 15. -/
def Obligations.AddressFieldPlacement : Prop :=
  (∀ a : Byte, (addrField .top6 a).toNat = a.toNat % 64) ∧
  (∀ a b : Byte, a.toNat < 32 → b.toNat < 32 → addrField .top6 a = addrField .top6 b → a = b) ∧
  (∀ a : Byte, (addrField .low6 a).toNat = 4 * (a.toNat % 16))

/-- 40_bus_encoder.md section 4 (decision D18): BLSET drives BL where the line exists and is ignored where it does not;
no frame either way. -/
def Obligations.BlsetDrivesTheBacklight : Prop :=
  HostOp 0xA (fun w => .blset (w.getLsbD 0)) ∧
  ∀ (level : Bool) (s : State), ∃ t, exec (.blset level) s = .next t ∧
    (s.params.hasBacklight = true →
      t.lineTrace = s.lineTrace ++ [⟨.bl, level⟩] ∧ t.lines = { s.lines with bl := level }) ∧
    (s.params.hasBacklight = false → SameLines s t) ∧
    t.frames = s.frames ∧ SameBuf s t ∧ SameRest s t ∧ t.reply = none

/-- 30_encoding.md section 1 (the block never decodes the wire encoding; no other operation exists), with log entry 13: frame
bits presented to the block change nothing, whatever they are, and the two wire-frame rows complete so. -/
def Obligations.FramesPresentedChangeNothing : Prop :=
  ∀ s : State,
    (∀ o, exec (.frameCmd o) s = .next { s with reply := none }) ∧
    (∀ f n, exec (.frameData f n) s = .next { s with reply := none }) ∧
    (∀ bits rest, s.pending = .packet (.wire bits) :: rest → step s = .next { s with pending := rest, reply := none })

/-- 30_encoding.md section 1 (no other operation exists) and section 7 of 10_state.md: every frame on the bus is a command frame
or a data frame whose field is the ADDR_FIELD of some address (for WRADDR from 32 on, by decision D8, log entry 6); at reset,
and after every step from a quiescent state of which it holds. -/
def Obligations.EveryFrameIsOneAnOperationSends : Prop :=
  (∀ f ∈ State.reset.frames, SentFrame State.reset.params f) ∧
  ∀ s t : State, Quiescent s → (∀ f ∈ s.frames, SentFrame s.params f) → step s = .next t →
    ∀ f ∈ t.frames, SentFrame t.params f

/-- 30_encoding.md section 4 (decision D1; log entry 6): under LOW6 no data frame on the bus has a field that is not a multiple
of four; at every step from a quiescent state of which it holds. -/
def Obligations.Low6FieldsAreMultiplesOfFour : Prop :=
  ∀ s t : State, Quiescent s → s.params.addrField = .low6 →
    (∀ f n, dataFrame f n ∈ s.frames → f.toNat % 4 = 0) → step s = .next t →
    ∀ f n, dataFrame f n ∈ t.frames → f.toNat % 4 = 0

/-- 40_bus_encoder.md section 1: the canonical number of line events of a command frame, a data frame, a flush, a startup. -/
def Obligations.CanonicalEventCounts : Prop :=
  (∀ o (s t : State), exec (.wrcmd o) s = .next t → t.lineTrace.length = s.lineTrace.length + 35) ∧
  (∀ a n (s t : State), exec (.wraddr a n) s = .next t → t.lineTrace.length = s.lineTrace.length + 41) ∧
  (∀ s t : State, exec .flush s = .next t → t.lineTrace.length = s.lineTrace.length + 1312) ∧
  (∀ s t : State, exec .init s = .next t → t.lineTrace.length = s.lineTrace.length + 1522)

/-- 10_state.md section 7 (decision D19): traces that are equal but for stuttering events decode to the same frames. -/
def Obligations.EquivalentTracesDecodeAlike : Prop :=
  ∀ t u : List LineEvent, TraceEquiv t u → (observe t).frames = (observe u).frames

/-- 40_bus_encoder.md section 1: a repeated line write makes an equivalent trace, wherever it stands. -/
def Obligations.RepeatedWritesAreEquivalent : Prop :=
  ∀ (t u : List LineEvent) (e : LineEvent), TraceEquiv (t ++ e :: e :: u) (t ++ e :: u)

/-- 20_memory.md section 2 (d), 41_segment_buffer.md section 8 (6), 43_digit_composer.md section 1: no operation but the bus
operations, the startup and the backlight drives a line; in particular no render flushes. The two wire-frame rows drive none
either (30_encoding.md R51; log entry 13). -/
def Obligations.OnlyBusOperationsDriveLines : Prop :=
  ∀ (i : Instr) (s t : State), drivesLines i = false → exec i s = .next t → SameLines s t

/-- 92_eei_decisions.md D18: no operation but BLSET drives BL. -/
def Obligations.OnlyBlsetMovesTheBacklight : Prop :=
  ∀ (i : Instr) (s t : State), (∀ level, i ≠ .blset level) → exec i s = .next t → t.lines.bl = s.lines.bl

/-! ## The buffer -/

/-- 41_segment_buffer.md R90. -/
def Obligations.SetbitOrsTheMask : Prop :=
  HostOp 0x3 (fun w => .setbit ⟨wordB1 w, wordB0 w⟩) ∧
  ∀ (g : Seg) (s : State), ∃ t, exec (.setbit g) s = .next t ∧
    (∀ x : Byte, t.readByte? x = if x = g.address then (s.readByte? x).map (· ||| g.mask) else s.readByte? x) ∧
    SameLines s t ∧ SameRest s t ∧ t.reply = none

/-- 41_segment_buffer.md R91. -/
def Obligations.ClrbitAndNotsTheMask : Prop :=
  HostOp 0x4 (fun w => .clrbit ⟨wordB1 w, wordB0 w⟩) ∧
  ∀ (g : Seg) (s : State), ∃ t, exec (.clrbit g) s = .next t ∧
    (∀ x : Byte, t.readByte? x = if x = g.address then (s.readByte? x).map (· &&& ~~~g.mask) else s.readByte? x) ∧
    SameLines s t ∧ SameRest s t ∧ t.reply = none

/-- 41_segment_buffer.md R92. -/
def Obligations.FillSetsEveryByte : Prop :=
  HostOp 0x5 (fun w => .fill (wordB0 w)) ∧
  ∀ (v : Byte) (s : State), ∃ t, exec (.fill v) s = .next t ∧
    (∀ x : Byte, t.readByte? x = if x.toNat < 32 then some v else none) ∧
    SameLines s t ∧ SameRest s t ∧ t.reply = none

/-- 41_segment_buffer.md R94. -/
def Obligations.WrbyteStoresTheByte : Prop :=
  HostOp 0x7 (fun w => .wrbyte (wordB1 w) (wordB0 w)) ∧
  ∀ (a v : Byte) (s : State), ∃ t, exec (.wrbyte a v) s = .next t ∧
    (∀ x : Byte, t.readByte? x = if x = a ∧ a.toNat < 32 then some v else s.readByte? x) ∧
    SameLines s t ∧ SameRest s t ∧ t.reply = none

/-- 41_segment_buffer.md section 5 (decision D9 for 32 and more: a free value, log entry 5): RDBYTE returns the byte in range,
some byte out of range, and changes nothing else of the block either way. -/
def Obligations.RdbyteReturnsTheByte : Prop :=
  HostOp 0x6 (fun w => .rdbyte (wordB1 w)) ∧
  ∀ (a : Byte) (s : State), ∃ t v, exec (.rdbyte a) s = .next t ∧ t.reply = some v ∧
    (a.toNat < 32 → s.readByte? a = some v ∧ t.draws = s.draws) ∧
    (32 ≤ a.toNat → v = Config.drawByte s.draws ∧ t.draws = s.draws + 1) ∧
    SameBuf s t ∧ SameLines s t ∧ t.params = s.params ∧ t.pending = s.pending

/-- 41_segment_buffer.md section 7: FLUSH is the 32 direct writes of the top nibbles, in ascending order; its frames; the
latches it leaves; and what it leaves unchanged, the buffer with it. -/
def Obligations.FlushSendsEveryTopNibble : Prop :=
  HostOp 0x8 (fun _ => .flush) ∧
  ∀ s : State, ∃ t, exec .flush s = .next t ∧
    runList ((List.range 32).map fun a =>
      .wraddr (BitVec.ofNat 8 a) (topNibble ((s.readByte? (BitVec.ofNat 8 a)).getD 0))) s = .next t ∧
    (Quiescent s → t.frames = s.frames ++ (List.range 32).map fun a =>
      dataFrame (addrField s.params.addrField (BitVec.ofNat 8 a)) (topNibble ((s.readByte? (BitVec.ofNat 8 a)).getD 0))) ∧
    (∀ v, s.readByte? 31 = some v →
      t.lines = { s.lines with cs := true, clk := true, data := v.getLsbD 4 }) ∧
    SameBuf s t ∧ SameRest s t ∧ t.reply = none

/-- 41_segment_buffer.md section 1: an address of 32 or more is ignored by the four operations that check it. -/
def Obligations.OutOfRangeAddressesAreIgnored : Prop :=
  ∀ (a m : Byte) (s : State), 32 ≤ a.toNat →
    exec (.setbit ⟨a, m⟩) s = .next { s with reply := none } ∧
    exec (.clrbit ⟨a, m⟩) s = .next { s with reply := none } ∧
    exec (.wrbyte a m) s = .next { s with reply := none } ∧
    ∃ t, exec (.rdbyte a) s = .next t ∧ SameBuf s t ∧ SameLines s t

/-- 41_segment_buffer.md section 8 (1) to (3) and section 6: what is read back after a set, a clear, a fill and a store. -/
def Obligations.ReadBackLaws : Prop :=
  ∀ (a : Byte) (s : State), a.toNat < 32 →
    (∀ m, ∃ t v, runList [.setbit ⟨a, m⟩, .rdbyte a] s = .next t ∧ t.reply = some v ∧ v &&& m = m) ∧
    (∀ m, ∃ t v, runList [.clrbit ⟨a, m⟩, .rdbyte a] s = .next t ∧ t.reply = some v ∧ v &&& m = 0) ∧
    (∀ v, ∃ t, runList [.fill v, .rdbyte a] s = .next t ∧ t.reply = some v) ∧
    (∀ v, ∃ t, runList [.wrbyte a v, .rdbyte a] s = .next t ∧ t.reply = some v) ∧
    (∃ t u v, runList [.rdbyte a] s = .next t ∧ runList [.flush, .rdbyte a] s = .next u ∧ t.reply = some v ∧
      u.reply = some v)

/-- 41_segment_buffer.md section 1, 20_memory.md section 1, 43_digit_composer.md section 1 (g): applying a buffer write twice
equals applying it once, the renders included. -/
def Obligations.BufferWritesAreIdempotent : Prop :=
  ∀ (i : Instr) (s t : State),
    (∃ g, i = .setbit g ∨ i = .clrbit g) ∨ (∃ v, i = .fill v) ∨ (∃ a v, i = .wrbyte a v) ∨ (∃ x, i = .dispstr x) ∨
      (∃ n, i = .dispint n ∨ i = .disphex n) →
    exec i s = .next t → exec i t = .next t

/-- 10_state.md section 2 and 41_segment_buffer.md section 5: the operations that never write the buffer; and the two wire-frame
rows, which do nothing (30_encoding.md R51; log entry 13). -/
def Obligations.BusOperationsLeaveTheBuffer : Prop :=
  ∀ (i : Instr) (s t : State), leavesBuf i = true → exec i s = .next t → SameBuf s t

/-- 30_encoding.md section 4, 70_reset_and_hazards.md section 4: no bottom nibble ever reaches a line. Two states that differ
only there, and in the last answer, step alike: the same events, the same latches, and they differ only there again. -/
def Obligations.BottomNibblesNeverReachTheBus : Prop :=
  ∀ s u t : State, TopAgree s u → step s = .next t → ∃ v, step u = .next v ∧ TopAgree t v

/-! ## The character ROM -/

/-- 42_char_rom.md R110, 30_encoding.md R58: the table entry below 128, and 0 from 128 on; nothing else changes. -/
def Obligations.PatternReadsTheTable : Prop :=
  HostOp 0x9 (fun w => .pattern (wordB0 w)) ∧
  ∀ (c : Byte) (s : State), ∃ t v, exec (.pattern c) s = .next t ∧ t.reply = some v ∧ v.getLsbD 7 = false ∧
    (∀ h : c.toNat < 128, v = (s.params.rom[c.toNat]'h).zeroExtend 8) ∧ (128 ≤ c.toNat → v = 0) ∧
    SameBuf s t ∧ SameLines s t ∧ SameRest s t

/-- 42_char_rom.md R111, of the constants the block is built with (which `NoOperationChangesAParameter` keeps in every run). -/
def Obligations.PinnedCharacterPatterns : Prop :=
  ∀ s : State, s.params = builtParams →
    (∃ t, exec (.pattern 0x30) s = .next t ∧ t.reply = some 0b1111110) ∧
    (∃ t, exec (.pattern 0x38) s = .next t ∧ t.reply = some 0b1111111) ∧
    (∃ t, exec (.pattern 0x20) s = .next t ∧ t.reply = some 0) ∧
    (∃ t, exec (.pattern 0x41) s = .next t ∧ t.reply = some 0b1110111)

/-! ## The digit composer -/

/-- 43_digit_composer.md section 1 (f): after DISPSTR on a well-bound configuration (92_eei_decisions.md D13), a bound segment
is lit exactly when its bit of the pattern its digit shows is set. The characters past the third that `wordText` reads from a
word of length above 3 are the model's (log entry 14). -/
def Obligations.DispstrShowsTheText : Prop :=
  HostOp 0xC (fun w => .dispstr (wordText w)) ∧
  ∀ (x : List Byte) (s : State), WellBound s.params → ∃ t, exec (.dispstr x) s = .next t ∧
    ∀ k j, k < s.params.display.digits.count → j < 7 → bindingAt s.params k j ≠ .nul →
      ∃ v, t.readByte? (bindingAt s.params k j).address = some v ∧
        (v &&& (bindingAt s.params k j).mask ≠ 0 ↔ showsBit s.params x k j = true)

/-- 43_digit_composer.md section 1: a render, whatever the configuration, completes, drives no line, and changes no buffer bit
that no bound segment's mask has. -/
def Obligations.RendersTouchOnlyBoundSegments : Prop :=
  ∀ (i : Instr) (s : State), (∃ x, i = .dispstr x) ∨ (∃ n, i = .dispint n ∨ i = .disphex n) →
    ∃ t, exec i s = .next t ∧ SameLines s t ∧ SameRest s t ∧ t.reply = none ∧
      ∀ (a : Byte) (b : Nat), (∀ g ∈ boundSegs s.params, ¬(g.address = a ∧ g.mask.getLsbD b = true)) →
        (t.readByte? a).map (·.getLsbD b) = (s.readByte? a).map (·.getLsbD b)

/-- 30_encoding.md section 8, 43_digit_composer.md section 1: DISPSTR is its expansion into CLRBIT and SETBIT. -/
def Obligations.DispstrIsItsExpansion : Prop :=
  ∀ (x : List Byte) (s : State), ∃ t, runList (expansion s.params x) s = .next t ∧
    exec (.dispstr x) s = .next { t with reply := none }

/-- 43_digit_composer.md section 1 (padding, corner cases (a) and (b)): which strings render alike on N digits. -/
def Obligations.PaddingQuirk : Prop :=
  ∀ (s : State) (c d e : Byte) (x : List Byte),
    (s.params.display.digits.count = 2 ∨ s.params.display.digits.count = 3) ∧
    (s.params.display.digits.count = 3 →
      exec (.dispstr [c]) s = exec (.dispstr [0x20, 0x20, c]) s ∧
      exec (.dispstr [c, d]) s = exec (.dispstr [0x20, c, d]) s) ∧
    (s.params.display.digits.count = 2 →
      exec (.dispstr [c]) s = exec (.dispstr [0x20, c]) s ∧
      exec (.dispstr [c, d, e]) s = exec (.dispstr [c, d]) s) ∧
    (x.length = 0 ∨ 3 < x.length → exec (.dispstr x) s = exec (.dispstr [0x20, 0x20, 0x20]) s)

/-- 43_digit_composer.md section 4 (decision D15): the text of a number in base 10 or 16 has its value, only digits of the
base, and no leading zero but in "0". -/
def Obligations.NumberTextIsExact : Prop :=
  ∀ (base n : Nat), base = 10 ∨ base = 16 →
    textValue base (natText base n) = n ∧ (∀ c ∈ natText base n, IsDigitOf base c) ∧
      ((natText base n).head? = some 0x30 ↔ n = 0)

/-- 43_digit_composer.md section 2 (decision D15; log entry 7): DISPINT of a value of INT_W bits is DISPSTR of its decimal text,
and is blank above 999 and below -99. -/
def Obligations.DispintRendersTheDecimalText : Prop :=
  HostOp 0xD (fun w => .dispint (w.extractLsb' 0 16).toInt) ∧
  ∀ (i : Int) (s : State), LawfulParams s.params → InIntRange s.params.intW i → ∃ t, exec (.dispint i) s = .next t ∧
    (0 ≤ i → exec (.dispstr (natText 10 i.toNat)) s = .next t) ∧
    (i < 0 → exec (.dispstr (0x2D :: natText 10 (-i).toNat)) s = .next t) ∧
    (i < -99 ∨ 999 < i → exec (.dispstr [0x20, 0x20, 0x20]) s = .next t)

/-- 43_digit_composer.md section 3 (decision D15; log entry 7): DISPHEX of a value of INT_W bits is DISPSTR of the hexadecimal
text of its two's-complement pattern, and is blank above 0xFFF and for every negative value. -/
def Obligations.DisphexRendersTheHexText : Prop :=
  HostOp 0xE (fun w => .disphex (w.extractLsb' 0 16).toInt) ∧
  ∀ (i : Int) (s : State), LawfulParams s.params → InIntRange s.params.intW i → ∃ t, exec (.disphex i) s = .next t ∧
    (0 ≤ i → exec (.dispstr (natText 16 i.toNat)) s = .next t) ∧
    (i < 0 → exec (.dispstr (natText 16 (i + 2 ^ s.params.intW).toNat)) s = .next t) ∧
    (i < 0 ∨ 4095 < i → exec (.dispstr [0x20, 0x20, 0x20]) s = .next t)

/-! ## The startup sequence -/

/-- 70_reset_and_hazards.md R163. -/
def Obligations.InitRunsTheStartupSequence : Prop :=
  HostOp 0xB (fun _ => .init) ∧
  ∀ s : State, ∃ t, exec .init s = .next t ∧
    runList [.wrcmd s.params.opcodes.clockSrc, .wrcmd s.params.opcodes.bias, .wrcmd s.params.opcodes.sysDis,
      .wrcmd s.params.opcodes.wdtDis, .wrcmd s.params.opcodes.sysEn, .wrcmd s.params.opcodes.dispOn, .fill 0,
      .flush] s = .next t ∧
    (∀ x : Byte, t.readByte? x = if x.toNat < 32 then some 0 else none) ∧
    t.lines = { s.lines with cs := true, clk := true, data := false } ∧ SameRest s t ∧ t.reply = none ∧
    (Quiescent s → t.frames = s.frames ++
      [s.params.opcodes.clockSrc, s.params.opcodes.bias, s.params.opcodes.sysDis, s.params.opcodes.wdtDis,
        s.params.opcodes.sysEn, s.params.opcodes.dispOn].map cmdFrame ++
      (List.range 32).map fun a => dataFrame (addrField s.params.addrField (BitVec.ofNat 8 a)) 0)

/-! ## The receiver -/

/-- 20_memory.md section 2 (FLUSH as the fence), under TOP6 (decision D1; log entry 6): after a flush the receiver view
(decision D23; log entry 16) holds the top nibble of every buffer byte, and has been sent no command. -/
def Obligations.ReceiverHoldsTheBufferAfterFlush : Prop :=
  ∀ s : State, Quiescent s → s.params.addrField = .top6 → ∃ t, exec .flush s = .next t ∧
    t.receiver.cmds = s.receiver.cmds ∧
    ∀ a : Byte, a.toNat < 32 → t.receiver.nibbleAt (addrField .top6 a) = (t.readByte? a).map topNibble

/-- 70_reset_and_hazards.md section 4, 20_memory.md section 2 (e): a direct write reaches the receiver at once and not the
buffer, and the next flush overwrites it with the buffer's nibble. That the direct write's nibble is sent as given rests on
decision D7 (log entry 6), what the receiver view holds on D23 (log entry 16), its address under TOP6 on D1 (log entry 6). -/
def Obligations.DirectWriteIsOverwrittenByFlush : Prop :=
  ∀ (s : State) (a : Byte) (n : Nibble), Quiescent s → s.params.addrField = .top6 → a.toNat < 32 →
    ∃ t u, exec (.wraddr a n) s = .next t ∧ t.receiver.nibbleAt (addrField .top6 a) = some n ∧ SameBuf s t ∧
      exec .flush t = .next u ∧ u.receiver.nibbleAt (addrField .top6 a) = (s.readByte? a).map topNibble

/-- 43_digit_composer.md section 5: from a quiescent state of a well-bound configuration under TOP6, a render and a flush leave
the receiver view (decision D23; log entry 16) showing exactly the patterns of the text. TOP6 is decision D1, log entry 6. -/
def Obligations.RenderThenFlushReachesTheReceiver : Prop :=
  ∀ (s : State) (x : List Byte), Quiescent s → WellBound s.params → s.params.addrField = .top6 →
    ∃ t, runList [.dispstr x, .flush] s = .next t ∧
      ∀ k j, k < s.params.display.digits.count → j < 7 → bindingAt s.params k j ≠ .nul →
        (receiverShows t (bindingAt s.params k j) ↔ showsBit s.params x k j = true)
end

