-- ==== Sys2Proof/Laws/State.lean ====
section
/-! SUPPORT. Laws/State.lean: one lemma per field per update of the state, true by rfl, so that no later proof unfolds a
record update. -/

namespace Sys2Proof.Machine

variable (s : State)

@[simp] theorem State.drive_buf (line : Line) (level : Bool) : (s.drive line level).buf = s.buf := rfl
@[simp] theorem State.drive_lines (line : Line) (level : Bool) : (s.drive line level).lines = s.lines.put ⟨line, level⟩ := rfl
@[simp] theorem State.drive_params (line : Line) (level : Bool) : (s.drive line level).params = s.params := rfl
@[simp] theorem State.drive_events (line : Line) (level : Bool) : (s.drive line level).events = ⟨line, level⟩ :: s.events := rfl
@[simp] theorem State.drive_reply (line : Line) (level : Bool) : (s.drive line level).reply = s.reply := rfl
@[simp] theorem State.drive_pending (line : Line) (level : Bool) : (s.drive line level).pending = s.pending := rfl
@[simp] theorem State.drive_draws (line : Line) (level : Bool) : (s.drive line level).draws = s.draws := rfl
@[simp] theorem State.drive_lineTrace (line : Line) (level : Bool) :
    (s.drive line level).lineTrace = s.lineTrace ++ [⟨line, level⟩] := by
  simp [State.lineTrace]
@[simp] theorem State.drive_readByte? (line : Line) (level : Bool) (x : Byte) : (s.drive line level).readByte? x = s.readByte? x := rfl

@[simp] theorem State.wait_buf (delay : Nat) : (s.wait delay).buf = s.buf := rfl
@[simp] theorem State.wait_lines (delay : Nat) : (s.wait delay).lines = s.lines := rfl
@[simp] theorem State.wait_params (delay : Nat) : (s.wait delay).params = s.params := rfl
@[simp] theorem State.wait_events (delay : Nat) : (s.wait delay).events = s.events := rfl
@[simp] theorem State.wait_reply (delay : Nat) : (s.wait delay).reply = s.reply := rfl
@[simp] theorem State.wait_pending (delay : Nat) : (s.wait delay).pending = s.pending := rfl
@[simp] theorem State.wait_draws (delay : Nat) : (s.wait delay).draws = s.draws := rfl
@[simp] theorem State.wait_lineTrace (delay : Nat) : (s.wait delay).lineTrace = s.lineTrace := rfl
@[simp] theorem State.wait_readByte? (delay : Nat) (x : Byte) : (s.wait delay).readByte? x = s.readByte? x := rfl

@[simp] theorem State.answer_buf (value : Option Byte) : (s.answer value).buf = s.buf := rfl
@[simp] theorem State.answer_lines (value : Option Byte) : (s.answer value).lines = s.lines := rfl
@[simp] theorem State.answer_params (value : Option Byte) : (s.answer value).params = s.params := rfl
@[simp] theorem State.answer_events (value : Option Byte) : (s.answer value).events = s.events := rfl
@[simp] theorem State.answer_reply (value : Option Byte) : (s.answer value).reply = value := rfl
@[simp] theorem State.answer_pending (value : Option Byte) : (s.answer value).pending = s.pending := rfl
@[simp] theorem State.answer_draws (value : Option Byte) : (s.answer value).draws = s.draws := rfl
@[simp] theorem State.answer_lineTrace (value : Option Byte) : (s.answer value).lineTrace = s.lineTrace := rfl
@[simp] theorem State.answer_readByte? (value : Option Byte) (x : Byte) : (s.answer value).readByte? x = s.readByte? x := rfl

@[simp] theorem State.fillBuf_buf (value : Byte) : (s.fillBuf value).buf = Vector.replicate bufSize value := rfl
@[simp] theorem State.fillBuf_lines (value : Byte) : (s.fillBuf value).lines = s.lines := rfl
@[simp] theorem State.fillBuf_params (value : Byte) : (s.fillBuf value).params = s.params := rfl
@[simp] theorem State.fillBuf_events (value : Byte) : (s.fillBuf value).events = s.events := rfl
@[simp] theorem State.fillBuf_reply (value : Byte) : (s.fillBuf value).reply = s.reply := rfl
@[simp] theorem State.fillBuf_pending (value : Byte) : (s.fillBuf value).pending = s.pending := rfl
@[simp] theorem State.fillBuf_draws (value : Byte) : (s.fillBuf value).draws = s.draws := rfl
@[simp] theorem State.fillBuf_lineTrace (value : Byte) : (s.fillBuf value).lineTrace = s.lineTrace := rfl

@[simp] theorem State.present_buf (nbits w : Nat) : (s.present nbits w).buf = s.buf := rfl
@[simp] theorem State.present_lines (nbits w : Nat) : (s.present nbits w).lines = s.lines := rfl
@[simp] theorem State.present_params (nbits w : Nat) : (s.present nbits w).params = s.params := rfl
@[simp] theorem State.present_events (nbits w : Nat) : (s.present nbits w).events = s.events := rfl
@[simp] theorem State.present_reply (nbits w : Nat) : (s.present nbits w).reply = s.reply := rfl
@[simp] theorem State.present_pending (nbits w : Nat) : (s.present nbits w).pending = .packet (tablePacket nbits w) :: s.pending := rfl
@[simp] theorem State.present_draws (nbits w : Nat) : (s.present nbits w).draws = s.draws := rfl
@[simp] theorem State.present_lineTrace (nbits w : Nat) : (s.present nbits w).lineTrace = s.lineTrace := rfl
@[simp] theorem State.present_readByte? (nbits w : Nat) (x : Byte) : (s.present nbits w).readByte? x = s.readByte? x := rfl

@[simp] theorem State.draw_buf : s.draw.2.buf = s.buf := rfl
@[simp] theorem State.draw_lines : s.draw.2.lines = s.lines := rfl
@[simp] theorem State.draw_params : s.draw.2.params = s.params := rfl
@[simp] theorem State.draw_events : s.draw.2.events = s.events := rfl
@[simp] theorem State.draw_reply : s.draw.2.reply = s.reply := rfl
@[simp] theorem State.draw_pending : s.draw.2.pending = s.pending := rfl
@[simp] theorem State.draw_draws : s.draw.2.draws = s.draws + 1 := rfl
@[simp] theorem State.draw_lineTrace : s.draw.2.lineTrace = s.lineTrace := rfl
@[simp] theorem State.draw_readByte? (x : Byte) : s.draw.2.readByte? x = s.readByte? x := rfl
@[simp] theorem State.draw_value : s.draw.1 = Config.drawByte s.draws := rfl

/-- The pending requests are read by no operation but the port. -/
@[simp] theorem State.pop_lineTrace (rest : List Request) : ({ s with pending := rest } : State).lineTrace = s.lineTrace := rfl
@[simp] theorem State.pop_readByte? (rest : List Request) (x : Byte) :
    ({ s with pending := rest } : State).readByte? x = s.readByte? x := rfl

/-- Two states are equal where their fields are. -/
theorem State.eq_of_fields {s t : State} (hb : t.buf = s.buf) (hl : t.lines = s.lines) (hp : t.params = s.params)
    (he : t.events = s.events) (hr : t.reply = s.reply) (hq : t.pending = s.pending) (hd : t.draws = s.draws) :
    t = s := by
  cases s; cases t; simp_all

/-! ## Each latch after one of them is set -/

@[simp] theorem Lines.put_cs (ls : Lines) (v : Bool) : ls.put ⟨.cs, v⟩ = { ls with cs := v } := rfl
@[simp] theorem Lines.put_clk (ls : Lines) (v : Bool) : ls.put ⟨.clk, v⟩ = { ls with clk := v } := rfl
@[simp] theorem Lines.put_data (ls : Lines) (v : Bool) : ls.put ⟨.data, v⟩ = { ls with data := v } := rfl
@[simp] theorem Lines.put_bl (ls : Lines) (v : Bool) : ls.put ⟨.bl, v⟩ = { ls with bl := v } := rfl

/-- A latch that is set holds the level. -/
theorem Lines.get_put_same (ls : Lines) (e : LineEvent) : (ls.put e).get e.line = e.level := by
  obtain ⟨l, v⟩ := e; cases l <;> rfl

/-- Setting one latch leaves every other one alone (10_state.md R19). -/
theorem Lines.get_put_other (ls : Lines) (e : LineEvent) {l : Line} (h : l ≠ e.line) : (ls.put e).get l = ls.get l := by
  obtain ⟨k, v⟩ := e; cases k <;> cases l <;> first | rfl | exact absurd rfl h

end Sys2Proof.Machine
end

