-- ==== Sys2Proof/Laws/Bus.lean ====
section
/-! SUPPORT. Laws/Bus.lean: everything a bit cycle and a frame can do, once (40_bus_encoder.md R70, R71): the latches, the
events appended to the trace, and what the observer decodes. -/

namespace Sys2Proof.Machine

/-! ## The latches, replayed from events -/

/-- Replaying the events of a bit cycle. -/
@[simp] theorem put_bitEvents (b : Bool) (ls : Lines) :
    (bitEvents b).foldl Lines.put ls = { ls with data := b, clk := true } := by
  simp [bitEvents]

/-- Bit cycles move neither CS nor BL, and leave CLK high and DATA at the last bit. -/
theorem put_bitCycles (b : Bool) (bits : List Bool) (ls : Lines) :
    ((b :: bits).flatMap bitEvents).foldl Lines.put ls =
      { ls with clk := true, data := (b :: bits).getLast?.getD ls.data } := by
  induction bits generalizing b ls with
  | nil => simp
  | cons c bits ih =>
    rw [List.flatMap_cons, List.foldl_append, put_bitEvents, ih]
    simp [List.getLast?_cons]

/-- After the events of a frame CS and CLK are high, DATA is at the last bit and BL is as it was (R71). -/
theorem put_frame (b : Bool) (bits : List Bool) (ls : Lines) :
    (frameEvents (b :: bits)).foldl Lines.put ls = ⟨true, true, (b :: bits).getLast?.getD ls.data, ls.bl⟩ := by
  rw [frameEvents, List.foldl_cons, List.foldl_append, put_bitCycles]
  simp

/-! ## What the observer decodes -/

/-- Bit cycles while CS is low and CLK is high append the bits, in order (10_state.md R21). -/
theorem see_bitCycles (bits : List Bool) (d : Bool) (bs : List Bool) (fr : List (List Bool)) :
    (bits.flatMap bitEvents).foldl Observer.see ⟨false, true, d, bs, fr⟩ =
      ⟨false, true, bits.getLast?.getD d, bs ++ bits, fr⟩ := by
  induction bits generalizing d bs with
  | nil => simp
  | cons b bits ih =>
    have h : (bitEvents b).foldl Observer.see ⟨false, true, d, bs, fr⟩ = ⟨false, true, b, bs ++ [b], fr⟩ := by
      simp [bitEvents, Observer.see]
    rw [List.flatMap_cons, List.foldl_append, h, ih]
    simp [List.getLast?_cons]

/-- The observer decodes exactly one frame, equal to `bits`, from the events of a frame (R71). -/
theorem see_frame (bits : List Bool) (d : Bool) (bs : List Bool) (fr : List (List Bool)) :
    (frameEvents bits).foldl Observer.see ⟨true, true, d, bs, fr⟩ =
      ⟨true, true, bits.getLast?.getD d, [], fr ++ [bits]⟩ := by
  have h : Observer.see ⟨true, true, d, bs, fr⟩ ⟨.cs, false⟩ = ⟨false, true, d, [], fr⟩ := by simp [Observer.see]
  rw [frameEvents, List.foldl_cons, h, List.foldl_append, see_bitCycles]
  simp [Observer.see]

/-- The observer decodes exactly the frames whose events it sees. -/
theorem see_frames (fs : List (List Bool)) (d : Bool) (fr : List (List Bool)) :
    ∃ d', (fs.flatMap frameEvents).foldl Observer.see ⟨true, true, d, [], fr⟩ = ⟨true, true, d', [], fr ++ fs⟩ := by
  induction fs generalizing d fr with
  | nil => exact ⟨d, by simp⟩
  | cons f fs ih =>
    obtain ⟨d', h⟩ := ih (f.getLast?.getD d) (fr ++ [f])
    exact ⟨d', by rw [List.flatMap_cons, List.foldl_append, see_frame, h]; simp⟩

/-- The observer tracks the levels of CS, CLK and DATA. -/
theorem see_levels (es : List LineEvent) (o : Observer) (ls : Lines)
    (h : o.cs = ls.cs ∧ o.clk = ls.clk ∧ o.data = ls.data) :
    (es.foldl Observer.see o).cs = (es.foldl Lines.put ls).cs ∧
      (es.foldl Observer.see o).clk = (es.foldl Lines.put ls).clk ∧
      (es.foldl Observer.see o).data = (es.foldl Lines.put ls).data := by
  induction es generalizing o ls with
  | nil => simpa using h
  | cons e es ih =>
    apply ih
    obtain ⟨line, level⟩ := e
    obtain ⟨h1, h2, h3⟩ := h
    cases line <;> simp [Observer.see, Lines.put, h1, h2, h3]
    cases h4 : ls.cs <;> cases level <;> simp [h1, h2, h3, h4]

/-- In a quiescent state the observer sees CS and CLK high and no open frame. -/
theorem Quiescent.observer {s : State} (h : Quiescent s) :
    ∃ d, observe s.lineTrace = ⟨true, true, d, [], s.frames⟩ := by
  obtain ⟨h1, h2, h3, h4, -⟩ := h
  obtain ⟨a, b, -⟩ := see_levels s.lineTrace .atReset .atReset ⟨rfl, rfl, rfl⟩
  unfold TraceExplainsLines at h3
  rw [h3] at h1 h2
  refine ⟨(observe s.lineTrace).data, ?_⟩
  cases ho : observe s.lineTrace with
  | mk cs clk data bits frames =>
    rw [← observe, ho, h1] at a
    rw [← observe, ho, h2] at b
    rw [ho] at h4
    simp_all [State.frames]

/-! ## The operations on the lines -/

/-- `AppendedEvents es s t`: `t` is `s` after the line events `es` and nothing else, the answer to the host apart. It is the
one relation that every operation driving a line satisfies. -/
structure AppendedEvents (es : List LineEvent) (s t : State) : Prop where
  buf : t.buf = s.buf
  params : t.params = s.params
  pending : t.pending = s.pending
  draws : t.draws = s.draws
  trace : t.lineTrace = s.lineTrace ++ es
  lines : t.lines = es.foldl Lines.put s.lines

theorem AppendedEvents.refl (s : State) : AppendedEvents [] s s := ⟨rfl, rfl, rfl, rfl, by simp, rfl⟩

theorem AppendedEvents.trans {es fs : List LineEvent} {s t u : State} (h : AppendedEvents es s t)
    (k : AppendedEvents fs t u) : AppendedEvents (es ++ fs) s u :=
  ⟨k.buf.trans h.buf, k.params.trans h.params, k.pending.trans h.pending, k.draws.trans h.draws,
    by rw [k.trace, h.trace, List.append_assoc], by rw [k.lines, h.lines, List.foldl_append]⟩

theorem AppendedEvents.answer {es : List LineEvent} {s t : State} (h : AppendedEvents es s t) (v : Option Byte) :
    AppendedEvents es s (t.answer v) := ⟨h.buf, h.params, h.pending, h.draws, h.trace, h.lines⟩

theorem AppendedEvents.sameBuf {es : List LineEvent} {s t : State} (h : AppendedEvents es s t) : SameBuf s t := by
  intro a; simp [State.readByte?, h.buf]

theorem AppendedEvents.sameRest {es : List LineEvent} {s t : State} (h : AppendedEvents es s t) : SameRest s t :=
  ⟨h.params, h.pending, h.draws⟩

/-- `Drove es s t`: whatever became of the buffer, the answer and the draws, the line events from `s` to `t` are `es`, and the
constants and the host's further requests are as before. Every operation satisfies it. -/
structure Drove (es : List LineEvent) (s t : State) : Prop where
  params : t.params = s.params
  pending : t.pending = s.pending
  trace : t.lineTrace = s.lineTrace ++ es
  lines : t.lines = es.foldl Lines.put s.lines

theorem AppendedEvents.drove {es : List LineEvent} {s t : State} (h : AppendedEvents es s t) : Drove es s t :=
  ⟨h.params, h.pending, h.trace, h.lines⟩

theorem Drove.trans {es fs : List LineEvent} {s t u : State} (h : Drove es s t) (k : Drove fs t u) :
    Drove (es ++ fs) s u :=
  ⟨k.params.trans h.params, k.pending.trans h.pending, by rw [k.trace, h.trace, List.append_assoc],
    by rw [k.lines, h.lines, List.foldl_append]⟩

/-- Events keep the latches explained by the trace. -/
theorem Drove.explained {es : List LineEvent} {s t : State} (h : Drove es s t)
    (hs : TraceExplainsLines s) : TraceExplainsLines t := by
  unfold TraceExplainsLines at hs ⊢
  rw [h.lines, h.trace, List.foldl_append, ← hs]

/-- `drive` (00_scope.md R7). -/
theorem State.drive_appended (line : Line) (level : Bool) (s : State) :
    AppendedEvents [⟨line, level⟩] s (s.drive line level) :=
  ⟨rfl, rfl, rfl, rfl, by simp, rfl⟩

/-- `emit_bit` (R70). -/
theorem State.emitBit_appended (b : Bool) (s : State) : AppendedEvents (bitEvents b) s (s.emitBit b) :=
  ((State.drive_appended _ _ _).trans (State.drive_appended _ _ _)).trans (State.drive_appended _ _ _)

/-- The bit cycles of a frame (R71). -/
theorem State.emitBits_appended (bits : List Bool) (s : State) :
    AppendedEvents (bits.flatMap bitEvents) s (s.emitBits bits) := by
  induction bits generalizing s with
  | nil => exact .refl s
  | cons b bits ih => exact (State.emitBit_appended b s).trans (ih _)

/-- `send_frame` (R71). -/
theorem State.sendFrame_appended (bits : List Bool) (s : State) :
    AppendedEvents (frameEvents bits) s (s.sendFrame bits) :=
  (State.drive_appended _ _ _).trans ((State.emitBits_appended _ _).trans (State.drive_appended _ _ _))

/-- WRCMD sends one frame (R72). -/
theorem State.writeCommand_appended (opcode : Byte) (s : State) :
    AppendedEvents (frameEvents (cmdFrame opcode)) s (s.writeCommand opcode) := State.sendFrame_appended _ s

/-- WRADDR sends one frame (R73, R74). -/
theorem State.writeAddress_appended (address : Byte) (nibble : Nibble) (s : State) :
    AppendedEvents (frameEvents (dataFrame (addrField s.params.addrField address) nibble)) s
      (s.writeAddress address nibble) := State.sendFrame_appended _ s

/-- The events of a BLSET: one where the line exists, none where it does not (R75). -/
def blEvents (p : Params) (level : Bool) : List LineEvent := if p.hasBacklight then [⟨.bl, level⟩] else []

/-- BLSET (R75). -/
theorem State.setBacklight_appended (level : Bool) (s : State) :
    AppendedEvents (blEvents s.params level) s (s.setBacklight level) := by
  unfold blEvents State.setBacklight
  split
  · exact State.drive_appended _ _ _
  · exact .refl s

/-! ## Frames -/

/-- The command frame, bit by bit (30_encoding.md R52). -/
theorem cmdFrame_bits (o : Byte) :
    cmdFrame o = [true, false, false, o.getLsbD 7, o.getLsbD 6, o.getLsbD 5, o.getLsbD 4, o.getLsbD 3, o.getLsbD 2,
      o.getLsbD 1, o.getLsbD 0] := by
  simp [cmdFrame, tagCmd, msbFirst, List.range_succ, BitVec.getMsbD]

/-- The data frame, bit by bit (R53). -/
theorem dataFrame_bits (f : AddrBits) (n : Nibble) :
    dataFrame f n = [true, false, true, f.getLsbD 5, f.getLsbD 4, f.getLsbD 3, f.getLsbD 2, f.getLsbD 1, f.getLsbD 0,
      n.getLsbD 3, n.getLsbD 2, n.getLsbD 1, n.getLsbD 0] := by
  simp [dataFrame, tagData, msbFirst, List.range_succ, BitVec.getMsbD]

theorem cmdFrame_legal (o : Byte) : LegalFrame (cmdFrame o) := .inl ⟨rfl, rfl⟩

theorem dataFrame_legal (f : AddrBits) (n : Nibble) : LegalFrame (dataFrame f n) := .inr ⟨rfl, rfl⟩

theorem cmdFrame_sent (p : Params) (o : Byte) : SentFrame p (cmdFrame o) := .inl ⟨o, rfl⟩

theorem dataFrame_sent (p : Params) (a : Byte) (n : Nibble) : SentFrame p (dataFrame (addrField p.addrField a) n) :=
  .inr ⟨a, n, rfl⟩

/-- A frame that an operation sends is one the block can produce (10_state.md R21). -/
theorem SentFrame.legal {p : Params} {bits : List Bool} (h : SentFrame p bits) : LegalFrame bits := by
  rcases h with ⟨o, rfl⟩ | ⟨a, n, rfl⟩
  · exact cmdFrame_legal o
  · exact dataFrame_legal _ n

/-- The latches after a command frame (R72). -/
theorem put_cmdFrame (o : Byte) (ls : Lines) :
    (frameEvents (cmdFrame o)).foldl Lines.put ls = ⟨true, true, o.getLsbD 0, ls.bl⟩ := by
  rw [cmdFrame_bits, put_frame]; rfl

/-- The latches after a data frame (R73). -/
theorem put_dataFrame (f : AddrBits) (n : Nibble) (ls : Lines) :
    (frameEvents (dataFrame f n)).foldl Lines.put ls = ⟨true, true, n.getLsbD 0, ls.bl⟩ := by
  rw [dataFrame_bits, put_frame]; rfl

/-- The frame trace after frames are sent from a quiescent state: exactly those frames more (R71, R76). -/
theorem Drove.frames {fs : List (List Bool)} {s t : State} (h : Drove (fs.flatMap frameEvents) s t)
    (hq : Quiescent s) : t.frames = s.frames ++ fs := by
  obtain ⟨d, ho⟩ := hq.observer
  obtain ⟨d', hf⟩ := see_frames fs d s.frames
  rw [State.frames, h.trace, observe, List.foldl_append, ← observe, ho, hf]

/-- Sending legal frames keeps the quiescent invariant (10_state.md R26). -/
theorem Drove.quiescent {fs : List (List Bool)} {s t : State} (h : Drove (fs.flatMap frameEvents) s t)
    (hq : Quiescent s) (hf : ∀ f ∈ fs, LegalFrame f) : Quiescent t := by
  have hframes := h.frames hq
  obtain ⟨d, ho⟩ := hq.observer
  obtain ⟨q1, q2, q3, -, q5⟩ := hq
  obtain ⟨d', hs⟩ := see_frames fs d s.frames
  have hlevels : t.lines.cs = true ∧ t.lines.clk = true := by
    obtain ⟨a, b, -⟩ := see_levels (fs.flatMap frameEvents) ⟨true, true, s.lines.data, [], s.frames⟩ s.lines
      ⟨q1.symm, q2.symm, rfl⟩
    obtain ⟨d'', hs'⟩ := see_frames fs s.lines.data s.frames
    rw [hs'] at a b
    rw [h.lines]
    exact ⟨a.symm, b.symm⟩
  refine ⟨hlevels.1, hlevels.2, h.explained q3, ?_, ?_⟩
  · rw [h.trace, observe, List.foldl_append, ← observe, ho, hs]
  · intro f hm
    rw [hframes] at hm
    exact (List.mem_append.mp hm).elim (q5 f) (hf f)

/-- Driving BL is invisible to the observer and keeps the quiescent invariant (R21, R75). -/
theorem Quiescent.backlight {s t : State} {level : Bool} (h : Drove (blEvents s.params level) s t)
    (hq : Quiescent s) : Quiescent t ∧ t.frames = s.frames := by
  obtain ⟨q1, q2, q3, q4, q5⟩ := hq
  have hsee : observe t.lineTrace = observe s.lineTrace := by
    rw [h.trace, observe, List.foldl_append, ← observe]
    unfold blEvents
    split <;> rfl
  have hl : t.lines.cs = s.lines.cs ∧ t.lines.clk = s.lines.clk := by
    rw [h.lines]
    unfold blEvents
    split <;> exact ⟨rfl, rfl⟩
  have hf : t.frames = s.frames := by rw [State.frames, hsee]; rfl
  exact ⟨⟨hl.1.trans q1, hl.2.trans q2, h.explained q3, by rw [hsee]; exact q4, by rw [hf]; exact q5⟩, hf⟩

end Sys2Proof.Machine
end

