-- ==== Sys2Proof/Laws/Buffer.lean ====
section
/-! SUPPORT. Laws/Buffer.lean: everything an access to the buffer can do, once (41_segment_buffer.md R90 to R96). -/

namespace Sys2Proof.Machine

/-! ## Reading -/

/-- A read is answered exactly where the address is below 32 (R96). -/
theorem State.readByte?_eq_none (s : State) (x : Byte) : s.readByte? x = none ↔ bufSize ≤ x.toNat := by
  simp [State.readByte?]

theorem State.readByte?_of_lt (s : State) {x : Byte} (h : x.toNat < bufSize) : ∃ v, s.readByte? x = some v :=
  ⟨s.buf[x.toNat], by simp [State.readByte?, h]⟩

theorem State.lt_of_readByte? {s : State} {x v : Byte} (h : s.readByte? x = some v) : x.toNat < bufSize := by
  by_contra hn
  rw [(s.readByte?_eq_none x).mpr (by omega)] at h
  cases h

/-- Buffers that read alike are equal. -/
theorem SameBuf.buf_eq {s t : State} (h : SameBuf s t) : t.buf = s.buf := by
  apply Vector.ext
  intro i hi
  have hb : (BitVec.ofNat 8 i).toNat = i := by
    rw [BitVec.toNat_ofNat]; exact Nat.mod_eq_of_lt (by unfold bufSize at hi; omega)
  have := h (BitVec.ofNat 8 i)
  simpa [State.readByte?, hb, hi] using this

/-! ## Writing -/

/-- `BufOnly s t`: `t` differs from `s` in its buffer at most. -/
structure BufOnly (s t : State) : Prop where
  lines : t.lines = s.lines
  params : t.params = s.params
  events : t.events = s.events
  reply : t.reply = s.reply
  pending : t.pending = s.pending
  draws : t.draws = s.draws

theorem BufOnly.refl (s : State) : BufOnly s s := ⟨rfl, rfl, rfl, rfl, rfl, rfl⟩

theorem BufOnly.trans {s t u : State} (h : BufOnly s t) (k : BufOnly t u) : BufOnly s u :=
  ⟨k.lines.trans h.lines, k.params.trans h.params, k.events.trans h.events, k.reply.trans h.reply,
    k.pending.trans h.pending, k.draws.trans h.draws⟩

theorem BufOnly.sameLines {s t : State} (h : BufOnly s t) : SameLines s t :=
  ⟨h.lines, by simp [State.lineTrace, h.events]⟩

theorem BufOnly.sameRest {s t : State} (h : BufOnly s t) : SameRest s t := ⟨h.params, h.pending, h.draws⟩

/-- Two states that differ in their buffers at most, and read alike, are equal. -/
theorem BufOnly.eq_of_sameBuf {s t : State} (h : BufOnly s t) (k : SameBuf s t) : t = s :=
  State.eq_of_fields k.buf_eq h.lines h.params h.events h.reply h.pending h.draws

theorem BufOnly.drove {s t : State} (h : BufOnly s t) : Drove [] s t :=
  ⟨h.params, h.pending, by simp [State.lineTrace, h.events], h.lines⟩

theorem State.writeByte_bufOnly (a v : Byte) (s : State) : BufOnly s (s.writeByte a v) := by
  unfold State.writeByte
  split
  · exact ⟨rfl, rfl, rfl, rfl, rfl, rfl⟩
  · exact .refl s

/-- What every byte reads after one is written; a write to an address of 32 or more changes nothing (R94, R96). -/
theorem State.writeByte_readByte? (a v : Byte) (s : State) (x : Byte) :
    (s.writeByte a v).readByte? x = if x = a then (s.readByte? x).map fun _ => v else s.readByte? x := by
  unfold State.writeByte State.readByte?
  split
  · rename_i h
    by_cases hx : x = a
    · subst hx; simp [h]
    · have hne : a.toNat ≠ x.toNat := fun e => hx (BitVec.eq_of_toNat_eq e.symm)
      simp [hne, hx]
  · rename_i h
    by_cases hx : x = a
    · subst hx; simp [h]
    · simp [hx]

theorem State.setBit_bufOnly (g : Seg) (s : State) : BufOnly s (s.setBit g) := by
  unfold State.setBit
  split
  · exact .refl s
  · exact State.writeByte_bufOnly _ _ s

/-- What every byte reads after SETBIT (R90, R97). -/
theorem State.setBit_readByte? (g : Seg) (s : State) (x : Byte) :
    (s.setBit g).readByte? x = if x = g.address then (s.readByte? x).map (· ||| g.mask) else s.readByte? x := by
  unfold State.setBit
  split
  · rename_i h
    split
    · rename_i hx; rw [hx, h]; rfl
    · rfl
  · rename_i old h
    rw [State.writeByte_readByte?]
    split
    · rename_i hx; rw [hx, h]; rfl
    · rfl

theorem State.clrBit_bufOnly (g : Seg) (s : State) : BufOnly s (s.clrBit g) := by
  unfold State.clrBit
  split
  · exact .refl s
  · exact State.writeByte_bufOnly _ _ s

/-- What every byte reads after CLRBIT (R91, R97). -/
theorem State.clrBit_readByte? (g : Seg) (s : State) (x : Byte) :
    (s.clrBit g).readByte? x = if x = g.address then (s.readByte? x).map (· &&& ~~~g.mask) else s.readByte? x := by
  unfold State.clrBit
  split
  · rename_i h
    split
    · rename_i hx; rw [hx, h]; rfl
    · rfl
  · rename_i old h
    rw [State.writeByte_readByte?]
    split
    · rename_i hx; rw [hx, h]; rfl
    · rfl

theorem State.fillBuf_bufOnly (v : Byte) (s : State) : BufOnly s (s.fillBuf v) := ⟨rfl, rfl, rfl, rfl, rfl, rfl⟩

/-- What every byte reads after FILL (R92). -/
theorem State.fillBuf_readByte? (v : Byte) (s : State) (x : Byte) :
    (s.fillBuf v).readByte? x = (s.readByte? x).map fun _ => v := by
  by_cases h : x.toNat < bufSize
  · simp [State.readByte?, State.fillBuf, h]
  · simp [State.readByte?, State.fillBuf, h]

/-- What RDBYTE fetches: the byte and no change, or a draw (R93). -/
theorem State.fetchByte_spec (a : Byte) (s : State) :
    (∃ v, s.readByte? a = some v ∧ s.fetchByte a = (v, s)) ∨
      (s.readByte? a = none ∧ s.fetchByte a = (Config.drawByte s.draws, { s with draws := s.draws + 1 })) := by
  unfold State.fetchByte
  cases h : s.readByte? a with
  | none => exact .inr ⟨rfl, rfl⟩
  | some v => exact .inl ⟨v, rfl, rfl⟩

/-! ## Flushing -/

/-- The 32 addresses are those below 32. -/
theorem mem_bufAddresses {a : Byte} : a ∈ bufAddresses ↔ a.toNat < bufSize := by
  simp only [bufAddresses, List.mem_map, List.mem_range]
  constructor
  · rintro ⟨i, hi, rfl⟩
    rw [BitVec.toNat_ofNat, Nat.mod_eq_of_lt (by unfold bufSize at hi; omega)]
    exact hi
  · intro h
    exact ⟨a.toNat, h, by simp⟩

/-- The frames a flush sends for some addresses: the address field and the top nibble of each (R95). -/
def flushFrames (s : State) (as : List Byte) : List (List Bool) :=
  as.map fun a => dataFrame (addrField s.params.addrField a) (topNibble ((s.readByte? a).getD 0))

theorem flushFrames_sent (s : State) (as : List Byte) : ∀ f ∈ flushFrames s as, SentFrame s.params f := by
  intro f hm
  obtain ⟨a, -, rfl⟩ := List.mem_map.mp hm
  exact dataFrame_sent _ _ _

theorem AppendedEvents.flushFrames_eq {es : List LineEvent} {s t : State} (h : AppendedEvents es s t) (as : List Byte) :
    flushFrames t as = flushFrames s as := by
  simp [flushFrames, h.params, State.readByte?, h.buf]

theorem State.flushByte_appended (s : State) {a : Byte} (h : a.toNat < bufSize) :
    AppendedEvents ((flushFrames s [a]).flatMap frameEvents) s (s.flushByte a) := by
  obtain ⟨v, hv⟩ := s.readByte?_of_lt h
  unfold State.flushByte
  rw [hv]
  simpa [flushFrames, hv] using State.writeAddress_appended a (topNibble v) s

theorem State.flushList_appended (as : List Byte) (h : ∀ a ∈ as, a.toNat < bufSize) (s : State) :
    AppendedEvents ((flushFrames s as).flatMap frameEvents) s (as.foldl State.flushByte s) := by
  induction as generalizing s with
  | nil => exact .refl s
  | cons a as ih =>
    have h1 := State.flushByte_appended s (h a (by simp))
    have h2 := ih (fun x hx => h x (by simp [hx])) (s.flushByte a)
    rw [h1.flushFrames_eq] at h2
    simpa [flushFrames] using h1.trans h2

/-- FLUSH sends the 32 frames, in ascending order, and changes nothing else (R95). -/
theorem State.flushBuf_appended (s : State) :
    AppendedEvents ((flushFrames s bufAddresses).flatMap frameEvents) s s.flushBuf :=
  State.flushList_appended _ (fun _ h => mem_bufAddresses.mp h) s

/-- The latches after a flush (R95). -/
theorem put_flushFrames (s : State) (ls : Lines) :
    ((flushFrames s bufAddresses).flatMap frameEvents).foldl Lines.put ls =
      ⟨true, true, (topNibble ((s.readByte? 31).getD 0)).getLsbD 0, ls.bl⟩ := by
  have hs : bufAddresses = bufAddresses.dropLast ++ [31] := by decide
  have hb : ∀ (as : List Byte) (l : Lines), (((flushFrames s as).flatMap frameEvents).foldl Lines.put l).bl = l.bl := by
    intro as
    induction as with
    | nil => intro l; rfl
    | cons a as ih =>
      intro l
      simp only [flushFrames, List.map_cons, List.flatMap_cons, List.foldl_append, put_dataFrame]
      exact ih _
  have hf : flushFrames s bufAddresses = flushFrames s bufAddresses.dropLast ++
      [dataFrame (addrField s.params.addrField 31) (topNibble ((s.readByte? 31).getD 0))] := by
    conv => lhs; rw [hs]
    simp only [flushFrames, List.map_append, List.map_cons, List.map_nil]
  rw [hf, List.flatMap_append, List.foldl_append]
  generalize bufAddresses.dropLast = as
  rw [List.flatMap_cons, List.flatMap_nil, List.append_nil, put_dataFrame, hb]

end Sys2Proof.Machine
end

