-- ==== Sys2Proof/Laws/Composer.lean ====
section
/-! SUPPORT. Laws/Composer.lean: everything a render can do, once (43_digit_composer.md R120 to R126): it is a list of CLRBIT
and then a list of SETBIT, and what every byte reads after it. -/

namespace Sys2Proof.Machine

/-- The union of the masks that a list of SEGs has at one address. -/
def maskAt (gs : List Seg) (x : Byte) : Byte :=
  gs.foldl (fun m g => if x = g.address then m ||| g.mask else m) 0

/-- The segments a text lights: SEG j of digit k where bit 6 - j of the pattern of `text[k]` is set (R124). -/
def litSegs (p : Params) (text : List Byte) : List Seg :=
  (p.display.digits.slots.zip text).flatMap fun x =>
    (x.1.segs.zip (msbFirst (patternFor p.rom x.2))).filterMap fun y => if y.2 then some y.1 else none

/-- SETBITs change the buffer only. -/
theorem foldl_setBit_bufOnly (gs : List Seg) (s : State) : BufOnly s (gs.foldl (fun t g => t.setBit g) s) := by
  induction gs generalizing s with
  | nil => exact .refl s
  | cons g gs ih => exact (State.setBit_bufOnly g s).trans (ih _)

/-- CLRBITs change the buffer only. -/
theorem foldl_clrBit_bufOnly (gs : List Seg) (s : State) : BufOnly s (gs.foldl (fun t g => t.clrBit g) s) := by
  induction gs generalizing s with
  | nil => exact .refl s
  | cons g gs ih => exact (State.clrBit_bufOnly g s).trans (ih _)

theorem maskAt_foldl (gs : List Seg) (x m : Byte) :
    gs.foldl (fun m g => if x = g.address then m ||| g.mask else m) m = m ||| maskAt gs x := by
  unfold maskAt
  induction gs generalizing m with
  | nil => simp
  | cons g gs ih =>
    simp only [List.foldl_cons]
    rw [ih]
    by_cases h : x = g.address
    · simp only [h, if_true]
      rw [← h, ih (0 ||| g.mask)]
      simp [BitVec.or_assoc]
    · simp [h]

theorem maskAt_cons (g : Seg) (gs : List Seg) (x : Byte) :
    maskAt (g :: gs) x = (if x = g.address then g.mask else 0) ||| maskAt gs x := by
  conv => lhs; unfold maskAt
  rw [List.foldl_cons, maskAt_foldl]
  split <;> simp

/-- One bit of the union: some SEG at the address has it. -/
theorem maskAt_getLsbD (gs : List Seg) (x : Byte) (b : Nat) :
    (maskAt gs x).getLsbD b = true ↔ ∃ g ∈ gs, g.address = x ∧ g.mask.getLsbD b = true := by
  induction gs with
  | nil => simp [maskAt]
  | cons g gs ih =>
    rw [maskAt_cons, BitVec.getLsbD_or, Bool.or_eq_true, ih]
    by_cases h : x = g.address
    · subst h; simp
    · have h' : g.address ≠ x := fun e => h e.symm
      simp [h, h']

/-- What every byte reads after SETBITs. -/
theorem foldl_setBit_readByte? (gs : List Seg) (s : State) (x : Byte) :
    (gs.foldl (fun t g => t.setBit g) s).readByte? x = (s.readByte? x).map (· ||| maskAt gs x) := by
  induction gs generalizing s with
  | nil => simp [maskAt]
  | cons g gs ih =>
    rw [List.foldl_cons, ih, State.setBit_readByte?, maskAt_cons]
    split <;> cases s.readByte? x <;> simp [BitVec.or_assoc]

/-- What every byte reads after CLRBITs. -/
theorem foldl_clrBit_readByte? (gs : List Seg) (s : State) (x : Byte) :
    (gs.foldl (fun t g => t.clrBit g) s).readByte? x = (s.readByte? x).map (· &&& ~~~maskAt gs x) := by
  induction gs generalizing s with
  | nil =>
    have h0 : ∀ v : Byte, v &&& ~~~maskAt [] x = v := by
      intro v
      have hz : ~~~(0 : Byte) = BitVec.allOnes 8 := by decide
      rw [maskAt, List.foldl_nil, hz, BitVec.and_allOnes]
    cases h : s.readByte? x <;> simp [h, h0]
  | cons g gs ih =>
    rw [List.foldl_cons, ih, State.clrBit_readByte?, maskAt_cons]
    split <;> cases s.readByte? x <;> simp [BitVec.not_or, BitVec.and_assoc]

/-- The blank phase is the CLRBITs of the bound segments (R121, 30_encoding.md R64). -/
theorem State.blankPhase_eq (s : State) :
    s.blankPhase = (boundSegs s.params).foldl (fun t g => t.clrBit g) s := by
  have h1 : ∀ (gs : List Seg) (t : State),
      gs.foldl State.blankSeg t = (gs.filter (· ≠ Seg.nul)).foldl (fun t g => t.clrBit g) t := by
    intro gs
    induction gs with
    | nil => intro t; rfl
    | cons g gs ih =>
      intro t
      rw [List.foldl_cons, ih, State.blankSeg]
      by_cases h : g = Seg.nul <;> simp [h]
  have h2 : ∀ (ds : List Digit) (t : State),
      ds.foldl State.blankDigit t = ((ds.flatMap Digit.segs).filter (· ≠ Seg.nul)).foldl (fun t g => t.clrBit g) t := by
    intro ds
    induction ds with
    | nil => intro t; rfl
    | cons d ds ih =>
      intro t
      rw [List.foldl_cons, ih, State.blankDigit, h1, List.flatMap_cons, List.filter_append, List.foldl_append]
  exact h2 _ _

/-- The render phase is the SETBITs of the lit segments (R124, R64). -/
theorem State.renderPhase_eq (text : List Byte) (s : State) :
    s.renderPhase text = (litSegs s.params text).foldl (fun t g => t.setBit g) s := by
  have h1 : ∀ (ys : List (Seg × Bool)) (t : State), ys.foldl State.lightSeg t =
      (ys.filterMap fun y => if y.2 then some y.1 else none).foldl (fun t g => t.setBit g) t := by
    intro ys
    induction ys with
    | nil => intro t; rfl
    | cons y ys ih =>
      intro t
      rw [List.foldl_cons, ih, State.lightSeg]
      cases h : y.2 <;> simp [h]
  have h2 : ∀ (xs : List (Digit × Byte)) (p : Params) (t : State), t.params = p → xs.foldl State.renderDigit t =
      (xs.flatMap fun x => (x.1.segs.zip (msbFirst (patternFor p.rom x.2))).filterMap
        fun y => if y.2 then some y.1 else none).foldl (fun t g => t.setBit g) t := by
    intro xs p
    induction xs with
    | nil => intro t _; rfl
    | cons x xs ih =>
      intro t ht
      rw [List.foldl_cons, ih, State.renderDigit, h1, ht, List.flatMap_cons, List.foldl_append]
      rw [State.renderDigit, h1]
      exact (foldl_setBit_bufOnly _ _).params.trans ht
  exact h2 _ _ s rfl

/-- A render is the CLRBITs of the bound segments and then the SETBITs of the lit ones (R64, R120). -/
theorem State.displayString_eq (text : List Byte) (s : State) :
    s.displayString text =
      (litSegs s.params (pad s.params.display.digits.count text)).foldl (fun t g => t.setBit g)
        ((boundSegs s.params).foldl (fun t g => t.clrBit g) s) := by
  rw [State.displayString, State.renderPhase_eq, State.blankPhase_eq, (foldl_clrBit_bufOnly _ _).params]

/-- A render changes the buffer only (R120, R125). -/
theorem State.displayString_bufOnly (text : List Byte) (s : State) : BufOnly s (s.displayString text) := by
  rw [State.displayString_eq]
  exact (foldl_clrBit_bufOnly _ _).trans (foldl_setBit_bufOnly _ _)

/-- What every byte reads after a render. -/
theorem State.displayString_readByte? (text : List Byte) (s : State) (x : Byte) :
    (s.displayString text).readByte? x = (s.readByte? x).map fun v =>
      (v &&& ~~~maskAt (boundSegs s.params) x) |||
        maskAt (litSegs s.params (pad s.params.display.digits.count text)) x := by
  rw [State.displayString_eq, foldl_setBit_readByte?, foldl_clrBit_readByte?]
  cases s.readByte? x <;> simp

/-- Every lit segment is bound, or is NUL_SEG, whose mask is 0 (R124). -/
theorem mem_boundSegs_of_litSegs {p : Params} {text : List Byte} {g : Seg} (h : g ∈ litSegs p text) :
    g ∈ boundSegs p ∨ g = Seg.nul := by
  by_cases hn : g = Seg.nul
  · exact .inr hn
  · refine .inl (List.mem_filter.mpr ⟨?_, by simp [hn]⟩)
    obtain ⟨x, hx, hg⟩ := List.mem_flatMap.mp h
    obtain ⟨y, hy, hyg⟩ := List.mem_filterMap.mp hg
    refine List.mem_flatMap.mpr ⟨x.1, (List.of_mem_zip hx).1, ?_⟩
    split at hyg
    · cases hyg; exact (List.of_mem_zip hy).1
    · cases hyg

/-- The padded text always has a character for every digit (R122). -/
theorem pad_length (b : Bindings) (text : List Byte) : b.count ≤ (pad b.count text).length := by
  have hc : b.count = 2 ∨ b.count = 3 := by cases b <;> simp [Bindings.count, Bindings.slots]
  unfold pad
  split <;> rcases hc with hc | hc <;> simp_all

end Sys2Proof.Machine
end

