-- ==== Sys2Proof/Laws/Encoding.lean ====
section
/-! SUPPORT. Laws/Encoding.lean: the fields of a built word (30_encoding.md R54), and the value of bits sent most significant
first (20_memory.md R31). -/

namespace Sys2Proof

open Sys2Proof.Machine

/-! ## The fields of a host-port word (R54) -/

section
variable (op f : BitVec 4) (b2 b1 b0 : Byte)

/-- Each bit of a built word comes from its field. -/
theorem hostWord_getLsbD (i : Nat) : (hostWord op f b2 b1 b0).getLsbD i =
    if i < 8 then b0.getLsbD i else if i < 16 then b1.getLsbD (i - 8) else if i < 24 then b2.getLsbD (i - 16)
      else if i < 28 then f.getLsbD (i - 24) else op.getLsbD (i - 28) := by
  show (op ++ f ++ b2 ++ b1 ++ b0).getLsbD i = _
  simp only [BitVec.getLsbD_append]
  repeat' split
  all_goals first | rfl | (exfalso; omega)

@[simp] theorem wordOp_hostWord : wordOp (hostWord op f b2 b1 b0) = op := by
  apply BitVec.eq_of_getLsbD_eq
  intro i hi
  rw [wordOp, BitVec.getLsbD_extractLsb', hostWord_getLsbD]
  interval_cases i <;> simp

@[simp] theorem wordF_hostWord : wordF (hostWord op f b2 b1 b0) = f := by
  apply BitVec.eq_of_getLsbD_eq
  intro i hi
  rw [wordF, BitVec.getLsbD_extractLsb', hostWord_getLsbD]
  interval_cases i <;> simp

@[simp] theorem wordB2_hostWord : wordB2 (hostWord op f b2 b1 b0) = b2 := by
  apply BitVec.eq_of_getLsbD_eq
  intro i hi
  rw [wordB2, BitVec.getLsbD_extractLsb', hostWord_getLsbD]
  interval_cases i <;> simp

@[simp] theorem wordB1_hostWord : wordB1 (hostWord op f b2 b1 b0) = b1 := by
  apply BitVec.eq_of_getLsbD_eq
  intro i hi
  rw [wordB1, BitVec.getLsbD_extractLsb', hostWord_getLsbD]
  interval_cases i <;> simp

@[simp] theorem wordB0_hostWord : wordB0 (hostWord op f b2 b1 b0) = b0 := by
  apply BitVec.eq_of_getLsbD_eq
  intro i hi
  rw [wordB0, BitVec.getLsbD_extractLsb', hostWord_getLsbD]
  interval_cases i <;> simp

@[simp] theorem wordNibble_hostWord : wordNibble (hostWord op f b2 b1 b0) = b0.extractLsb' 0 4 := by
  apply BitVec.eq_of_getLsbD_eq
  intro i hi
  rw [wordNibble, BitVec.getLsbD_extractLsb', hostWord_getLsbD]
  interval_cases i <;> simp

@[simp] theorem wordLevel_hostWord : wordLevel (hostWord op f b2 b1 b0) = b0.getLsbD 0 := by
  rw [wordLevel, hostWord_getLsbD]; simp

end

@[simp] theorem wordOp_intWord (op : BitVec 4) (i : Int) : wordOp (intWord op i) = op := by
  apply BitVec.eq_of_getLsbD_eq
  intro k hk
  have h : ∀ j, (intWord op i).getLsbD j = (op ++ (0 : BitVec 12) ++ BitVec.ofInt 16 i).getLsbD j := fun _ => rfl
  rw [wordOp, BitVec.getLsbD_extractLsb', h]
  simp only [BitVec.getLsbD_append]
  interval_cases k <;> simp

/-- The low half of an integer word is the integer's 16 bits (R54). -/
theorem low_intWord (op : BitVec 4) (i : Int) : (intWord op i).extractLsb' 0 16 = BitVec.ofInt 16 i := by
  apply BitVec.eq_of_getLsbD_eq
  intro k hk
  simp only [intWord, BitVec.getLsbD_extractLsb', BitVec.getLsbD_append]
  simp [hk]

/-- An integer of 16 bits comes back from its word (R54). -/
theorem wordInt_intWord (op : BitVec 4) {i : Int} (h : intFitsWord i = true) : wordInt (intWord op i) = i := by
  simp only [intFitsWord, Bool.and_eq_true, decide_eq_true_eq] at h
  rw [wordInt, low_intWord, BitVec.toInt_ofInt]
  exact Int.bmod_eq_of_le (by omega) (by omega)

/-- Every integer word carries an integer of 16 bits. -/
theorem intFitsWord_wordInt (w : HostWord) : intFitsWord (wordInt w) = true := by
  have h1 := BitVec.toInt_lt (x := w.extractLsb' 0 16)
  have h2 := BitVec.le_toInt (x := w.extractLsb' 0 16)
  rw [intFitsWord, Bool.and_eq_true]
  exact ⟨decide_eq_true h2, decide_eq_true h1⟩

/-- The string of a word is well formed, whatever its length field (R54). -/
theorem textFitsWord_wordText (w : HostWord) : textFitsWord (wordText w) = true := by
  have h : (wordF w).toNat < 16 := (wordF w).isLt
  rw [textFitsWord, Bool.and_eq_true, List.all_eq_true]
  refine ⟨decide_eq_true (by simp [wordText]; omega), ?_⟩
  intro x hx
  rw [wordText, List.drop_take] at hx
  have := List.mem_of_mem_take hx
  simp at this
  simpa using this.2

/-! ## Bits sent most significant first -/

/-- The value of the first k bits sent (R31). -/
theorem bitsValue_range {w : Nat} (v : BitVec w) (k : Nat) (hk : k ≤ w) :
    bitsValue ((List.range k).map fun j => v.getMsbD j) = v.toNat / 2 ^ (w - k) := by
  induction k with
  | zero => simp [bitsValue, Nat.div_eq_of_lt v.isLt]
  | succ k ih =>
    rw [List.range_succ, List.map_append, bitsValue, List.foldl_append, ← bitsValue, ih (by omega)]
    have hb : v.getMsbD k = v.toNat.testBit (w - 1 - k) := by
      rw [BitVec.getMsbD, BitVec.getLsbD]; simp; omega
    have hw : w - k = (w - (k + 1)) + 1 := by omega
    have hi : w - 1 - k = w - (k + 1) := by omega
    simp only [List.map_cons, List.map_nil, List.foldl_cons, List.foldl_nil]
    rw [hb, hi, Nat.testBit_eq_decide_div_mod_eq, hw, Nat.pow_succ, ← Nat.div_div_eq_div_mul]
    have := Nat.div_add_mod (v.toNat / 2 ^ (w - (k + 1))) 2
    rcases Nat.mod_two_eq_zero_or_one (v.toNat / 2 ^ (w - (k + 1))) with h | h <;> simp [h] <;> omega

/-- The bits of a value, most significant first, have that value (R31). -/
theorem bitsValue_msbFirst {w : Nat} (v : BitVec w) : bitsValue (msbFirst v) = v.toNat := by
  have := bitsValue_range v w (Nat.le_refl w)
  simpa [msbFirst] using this

@[simp] theorem msbFirst_length {w : Nat} (v : BitVec w) : (msbFirst v).length = w := by simp [msbFirst]

/-- A command frame is read back (R52). -/
theorem decodeFrame_cmdFrame (o : Byte) : decodeFrame (cmdFrame o) = .ok (.frameCmd o) := by
  have h : (cmdFrame o).length = 11 ∧ (cmdFrame o).take 3 = tagCmd := ⟨rfl, rfl⟩
  rw [decodeFrame, if_pos h, show (cmdFrame o).drop 3 = msbFirst o from rfl, bitsValue_msbFirst, BitVec.ofNat_toNat]
  simp

/-- A data frame is read back (R53). -/
theorem decodeFrame_dataFrame (f : AddrBits) (n : Nibble) : decodeFrame (dataFrame f n) = .ok (.frameData f n) := by
  have h1 : ¬((dataFrame f n).length = 11 ∧ (dataFrame f n).take 3 = tagCmd) := by
    rintro ⟨h, -⟩; exact absurd (show 13 = 11 from h) (by decide)
  have h2 : (dataFrame f n).length = 13 ∧ (dataFrame f n).take 3 = tagData := ⟨rfl, rfl⟩
  rw [decodeFrame, if_neg h1, if_pos h2, show ((dataFrame f n).drop 3).take 6 = msbFirst f from rfl,
    show (dataFrame f n).drop 9 = msbFirst n from rfl, bitsValue_msbFirst, bitsValue_msbFirst, BitVec.ofNat_toNat,
    BitVec.ofNat_toNat]
  simp

end Sys2Proof
end

