-- ==== Sys2Proof/Laws/PerInstr.lean ====
section
/-! SUPPORT. Laws/PerInstr.lean: one fact about every row as a term: the word the encoder gives it has the `op` of its row
of the opcode table (30_encoding.md R60), and the two wire rows give a frame (R52, R53). -/

namespace Sys2Proof.Laws.TableRow

open Sys2Proof Sys2Proof.Machine

/-- The `op` of an operation's row, none for the two wire rows (R54, R60). -/
def tableOp : Instr → Option (BitVec 4)
  | .wrcmd _ => some 0x1
  | .wraddr _ _ => some 0x2
  | .setbit _ => some 0x3
  | .clrbit _ => some 0x4
  | .fill _ => some 0x5
  | .rdbyte _ => some 0x6
  | .wrbyte _ _ => some 0x7
  | .flush => some 0x8
  | .pattern _ => some 0x9
  | .blset _ => some 0xA
  | .init => some 0xB
  | .dispstr _ => some 0xC
  | .dispint _ => some 0xD
  | .disphex _ => some 0xE
  | .frameCmd _ => none
  | .frameData _ _ => none

/-- A packet belongs to a row. -/
def packetOfRow (op : Option (BitVec 4)) : Packet → Prop
  | .host w => op = some (wordOp w)
  | .wire bits => op = none ∧ LegalFrame bits

/-- The encoder's packet belongs to the operation's row. -/
def Statement (i : Instr) : Prop := packetOfRow (tableOp i) (encode i)

theorem wrcmd (o : Byte) : Statement (.wrcmd o) := by simp [Statement, tableOp, encode, packetOfRow]
theorem wraddr (a : Byte) (n : Nibble) : Statement (.wraddr a n) := by simp [Statement, tableOp, encode, packetOfRow]
theorem setbit (g : Seg) : Statement (.setbit g) := by simp [Statement, tableOp, encode, packetOfRow]
theorem clrbit (g : Seg) : Statement (.clrbit g) := by simp [Statement, tableOp, encode, packetOfRow]
theorem fill (v : Byte) : Statement (.fill v) := by simp [Statement, tableOp, encode, packetOfRow]
theorem rdbyte (a : Byte) : Statement (.rdbyte a) := by simp [Statement, tableOp, encode, packetOfRow]
theorem wrbyte (a v : Byte) : Statement (.wrbyte a v) := by simp [Statement, tableOp, encode, packetOfRow]
theorem flush : Statement .flush := by simp [Statement, tableOp, encode, packetOfRow]
theorem pattern (c : Byte) : Statement (.pattern c) := by simp [Statement, tableOp, encode, packetOfRow]
theorem blset (l : Bool) : Statement (.blset l) := by simp [Statement, tableOp, encode, packetOfRow]
theorem init : Statement .init := by simp [Statement, tableOp, encode, packetOfRow]
theorem dispstr (x : List Byte) : Statement (.dispstr x) := by simp [Statement, tableOp, encode, packetOfRow]
theorem dispint (n : Int) : Statement (.dispint n) := by simp [Statement, tableOp, encode, packetOfRow]
theorem disphex (n : Int) : Statement (.disphex n) := by simp [Statement, tableOp, encode, packetOfRow]
theorem frameCmd (o : Byte) : Statement (.frameCmd o) := ⟨rfl, cmdFrame_legal o⟩
theorem frameData (f : AddrBits) (n : Nibble) : Statement (.frameData f n) := ⟨rfl, dataFrame_legal f n⟩

end Sys2Proof.Laws.TableRow
end

