-- ==== Sys2Proof/Laws/Step.lean ====
section
/-! SUPPORT. Laws/Step.lean: what any operation and any step can do, once (10_state.md R12, R20, R25, R26). -/

namespace Sys2Proof.Machine

/-! ## The next state of each operation, by name, so that no proof unfolds `exec` -/

theorem exec_wrcmd (o : Byte) (s : State) : exec (.wrcmd o) s = .next ((s.writeCommand o).answer none) := rfl
theorem exec_wraddr (a : Byte) (n : Nibble) (s : State) :
    exec (.wraddr a n) s = .next ((s.writeAddress a n).answer none) := rfl
theorem exec_setbit (g : Seg) (s : State) : exec (.setbit g) s = .next ((s.setBit g).answer none) := rfl
theorem exec_clrbit (g : Seg) (s : State) : exec (.clrbit g) s = .next ((s.clrBit g).answer none) := rfl
theorem exec_fill (v : Byte) (s : State) : exec (.fill v) s = .next ((s.fillBuf v).answer none) := rfl
theorem exec_rdbyte (a : Byte) (s : State) :
    exec (.rdbyte a) s = .next ((s.fetchByte a).2.answer (some (s.fetchByte a).1)) := rfl
theorem exec_wrbyte (a v : Byte) (s : State) : exec (.wrbyte a v) s = .next ((s.writeByte a v).answer none) := rfl
theorem exec_flush (s : State) : exec .flush s = .next (s.flushBuf.answer none) := rfl
theorem exec_pattern (c : Byte) (s : State) :
    exec (.pattern c) s = .next (s.answer (some ((patternFor s.params.rom c).zeroExtend 8))) := rfl
theorem exec_blset (l : Bool) (s : State) : exec (.blset l) s = .next ((s.setBacklight l).answer none) := rfl
theorem exec_init (s : State) : exec .init s = .next (s.startup.answer none) := rfl
theorem exec_dispstr (x : List Byte) (s : State) : exec (.dispstr x) s = .next ((s.displayString x).answer none) := rfl
theorem exec_dispint (n : Int) (s : State) :
    exec (.dispint n) s = .next ((s.displayString (decText (intOperand s.params.intW n))).answer none) := rfl
theorem exec_disphex (n : Int) (s : State) :
    exec (.disphex n) s = .next ((s.displayString (hexText s.params.intW (intOperand s.params.intW n))).answer none) := rfl
theorem exec_frameCmd (o : Byte) (s : State) : exec (.frameCmd o) s = .next (s.answer none) := rfl
theorem exec_frameData (f : AddrBits) (n : Nibble) (s : State) : exec (.frameData f n) s = .next (s.answer none) := rfl

/-- The startup sequence: the six command frames, and then the flush of a buffer of zeros (70_reset_and_hazards.md R163). -/
def startupFrames (p : Params) : List (List Bool) :=
  (startupOpcodes p.opcodes).map cmdFrame ++ bufAddresses.map fun a => dataFrame (addrField p.addrField a) 0

theorem commands_appended (os : List Byte) (s : State) :
    AppendedEvents ((os.map cmdFrame).flatMap frameEvents) s (os.foldl (fun t o => t.writeCommand o) s) := by
  induction os generalizing s with
  | nil => exact .refl s
  | cons o os ih =>
    rw [List.map_cons, List.flatMap_cons, List.foldl_cons]
    exact (State.writeCommand_appended o s).trans (ih _)

/-- The frames of a flush of a buffer of zeros. -/
theorem flushFrames_fill_zero (s : State) :
    flushFrames (s.fillBuf 0) bufAddresses = bufAddresses.map fun a => dataFrame (addrField s.params.addrField a) 0 := by
  unfold flushFrames
  apply List.map_congr_left
  intro a ha
  obtain ⟨v, hv⟩ := s.readByte?_of_lt (mem_bufAddresses.mp ha)
  have hz : topNibble 0 = 0 := by decide
  rw [State.fillBuf_readByte?, hv, Option.map_some, Option.getD_some, hz, State.fillBuf_params]

/-- INIT: the events of the six commands and the flush, and a buffer of zeros (R163). -/
theorem State.startup_spec (s : State) :
    Drove ((startupFrames s.params).flatMap frameEvents) s s.startup ∧ s.startup.draws = s.draws ∧
      ∀ x, s.startup.readByte? x = (s.readByte? x).map fun _ => 0 := by
  have h1 := commands_appended (startupOpcodes s.params.opcodes) s
  generalize hu : (startupOpcodes s.params.opcodes).foldl (fun t o => t.writeCommand o) s = u at h1
  have h2 := State.fillBuf_bufOnly 0 u
  have h3 := State.flushBuf_appended (u.fillBuf 0)
  rw [flushFrames_fill_zero, h1.params] at h3
  have hs : s.startup = (u.fillBuf 0).flushBuf := by rw [State.startup, hu]
  rw [hs]
  refine ⟨?_, h3.draws.trans (h2.draws.trans h1.draws), ?_⟩
  · simpa [startupFrames, List.flatMap_append] using (h1.drove.trans h2.drove).trans h3.drove
  · intro x
    rw [h3.sameBuf x, State.fillBuf_readByte?, h1.sameBuf x]

theorem startupFrames_sent (p : Params) : ∀ f ∈ startupFrames p, SentFrame p f := by
  intro f hf
  rcases List.mem_append.mp hf with h | h
  · obtain ⟨o, -, rfl⟩ := List.mem_map.mp h; exact cmdFrame_sent p o
  · obtain ⟨a, -, rfl⟩ := List.mem_map.mp h; exact dataFrame_sent p _ _

/-- The line events of a quiet operation, of whole frames that operations send, or of the backlight: all there are. -/
inductive Legal (p : Params) : List LineEvent → Prop where
  | frames (fs : List (List Bool)) (h : ∀ f ∈ fs, SentFrame p f) : Legal p (fs.flatMap frameEvents)
  | backlight (level : Bool) : Legal p (blEvents p level)

theorem Legal.none (p : Params) : Legal p [] := .frames [] (by simp)

theorem Legal.one (p : Params) {f : List Bool} (h : SentFrame p f) : Legal p (frameEvents f) := by
  have := Legal.frames (p := p) [f] (by simpa using h)
  simpa using this

theorem Drove.answer {es : List LineEvent} {s t : State} (h : Drove es s t) (v : Option Byte) : Drove es s (t.answer v) :=
  ⟨h.params, h.pending, h.trace, h.lines⟩

/-- Every operation completes (60_exceptions.md R140), and its line events are those of whole sent frames, of the backlight,
or none. -/
theorem exec_drove (i : Instr) (s : State) : ∃ es t, exec i s = .next t ∧ Drove es s t ∧ Legal s.params es := by
  cases i with
  | wrcmd o => exact ⟨_, _, rfl, (State.writeCommand_appended o s).drove.answer _, .one _ (cmdFrame_sent _ _)⟩
  | wraddr a n => exact ⟨_, _, rfl, (State.writeAddress_appended a n s).drove.answer _, .one _ (dataFrame_sent _ _ _)⟩
  | setbit g => exact ⟨_, _, rfl, (State.setBit_bufOnly g s).drove.answer _, .none _⟩
  | clrbit g => exact ⟨_, _, rfl, (State.clrBit_bufOnly g s).drove.answer _, .none _⟩
  | fill v => exact ⟨_, _, rfl, (State.fillBuf_bufOnly v s).drove.answer _, .none _⟩
  | rdbyte a =>
    refine ⟨[], _, rfl, ?_, .none _⟩
    rcases State.fetchByte_spec a s with ⟨v, -, h⟩ | ⟨-, h⟩ <;> rw [h] <;> exact ⟨rfl, rfl, by simp [State.lineTrace], rfl⟩
  | wrbyte a v => exact ⟨_, _, rfl, (State.writeByte_bufOnly a v s).drove.answer _, .none _⟩
  | flush => exact ⟨_, _, rfl, (State.flushBuf_appended s).drove.answer _, .frames _ (flushFrames_sent _ _)⟩
  | pattern c => exact ⟨[], _, rfl, ⟨rfl, rfl, by simp, rfl⟩, .none _⟩
  | blset l => exact ⟨_, _, rfl, (State.setBacklight_appended l s).drove.answer _, .backlight l⟩
  | init => exact ⟨_, _, rfl, (State.startup_spec s).1.answer _, .frames _ (startupFrames_sent _)⟩
  | dispstr x => exact ⟨_, _, rfl, (State.displayString_bufOnly _ s).drove.answer _, .none _⟩
  | dispint n => exact ⟨_, _, rfl, (State.displayString_bufOnly _ s).drove.answer _, .none _⟩
  | disphex n => exact ⟨_, _, rfl, (State.displayString_bufOnly _ s).drove.answer _, .none _⟩
  | frameCmd o => exact ⟨[], _, rfl, ⟨rfl, rfl, by simp, rfl⟩, .none _⟩
  | frameData f n => exact ⟨[], _, rfl, ⟨rfl, rfl, by simp, rfl⟩, .none _⟩

/-- What an operation that answered `t` drove. -/
theorem exec_next {i : Instr} {s t : State} (h : exec i s = .next t) : ∃ es, Drove es s t ∧ Legal s.params es := by
  obtain ⟨es, u, hu, hd, hl⟩ := exec_drove i s
  rw [hu] at h
  cases h
  exact ⟨es, hd, hl⟩

/-- What the port makes of a request: an operation, the silence after a reserved word or frame bits, or a refusal. -/
theorem State.issue_next {r : Request} {s t : State} (h : State.issue r s = .next t) :
    (∃ i, exec i s = .next t) ∨ t = s.answer none := by
  unfold State.issue at h
  split at h
  · exact .inl ⟨_, h⟩
  · cases h; exact .inr rfl
  · split at h
    · unfold State.runDecoded at h
      split at h
      · cases h
      · exact .inl ⟨_, h⟩
    · cases h; exact .inr rfl

/-- Everything a step can do when it answers a next state. -/
theorem step_next {s t : State} (h : step s = .next t) :
    (s.pending = [] ∧ t = s) ∨ ∃ r rest, s.pending = r :: rest ∧
      ((∃ i, exec i { s with pending := rest } = .next t) ∨ t = ({ s with pending := rest } : State).answer none) := by
  unfold step State.next at h
  split at h
  · rename_i hp; cases h; exact .inl ⟨hp, rfl⟩
  · rename_i r rest hp; exact .inr ⟨r, rest, hp, State.issue_next h⟩

/-- The line events of a step. -/
theorem step_drove {s t : State} (h : step s = .next t) :
    ∃ es, t.params = s.params ∧ t.lineTrace = s.lineTrace ++ es ∧ t.lines = es.foldl Lines.put s.lines ∧
      Legal s.params es := by
  rcases step_next h with ⟨-, rfl⟩ | ⟨r, rest, -, ⟨i, hi⟩ | rfl⟩
  · exact ⟨[], rfl, by simp, rfl, .none _⟩
  · obtain ⟨es, hd, hl⟩ := exec_next hi
    exact ⟨es, hd.params, hd.trace, hd.lines, hl⟩
  · exact ⟨[], rfl, by simp, rfl, .none _⟩

end Sys2Proof.Machine
end

