-- ==== Sys2Proof/Tests/Slice0.lean ====
section
/-! SUPPORT. Tests/Slice0.lean: tests with expected values from spec/95_test_vectors.md (each names its vector), the smoke
test of WellFormed, and for every statement with hypotheses a witness that meets them. -/

namespace Sys2Proof.Tests

open Sys2Proof Sys2Proof.Machine

/-! ## The test machine: the parameters of 95_test_vectors.md (ROM_DEFAULT, TOP6, INT_W = 16, EX3 or EX2) -/

/-- The opcodes of part 3 of 95_test_vectors.md. -/
def opcodes : Catalog := ⟨0x11, 0x22, 0x33, 0x44, 0x55, 0x66, 0x77⟩

/-- DIGIT[k] of EX3, at addresses `x` = 2k and `y` = 2k + 1. -/
def exDigit (x y : Byte) : Digit :=
  ⟨⟨x, 0x80⟩, ⟨x, 0x40⟩, ⟨x, 0x20⟩, ⟨x, 0x10⟩, ⟨y, 0x80⟩, ⟨y, 0x40⟩, ⟨y, 0x20⟩⟩

def ex3 : Bindings := .three (exDigit 0 1) (exDigit 2 3) (exDigit 4 5)
def ex2 : Bindings := .two (exDigit 0 1) (exDigit 2 3)

/-- The parameters, with a backlight line. -/
def params (digits : Bindings) : Params :=
  ⟨.top6, opcodes, romDefault, [], ⟨digits, false⟩, true, 16, ⟨0, 0, 0⟩⟩

/-- Lines idle, traces empty, every buffer byte `v`. -/
def start (digits : Bindings) (v : Byte) : State :=
  ⟨Vector.replicate 32 v, .atReset, params digits, [], none, [], 0⟩

/-- The same, with one byte set. -/
def startAt (a : Nat) (v : Byte) : State :=
  { start ex3 0 with buf := (Vector.replicate 32 0).setIfInBounds a v }

/-- The same, with one request to come. -/
def asked (r : Request) : State := { start ex3 0 with pending := [r] }

/-- The same, with another INT_W. -/
def wide (intW : Nat) (r : Request) : State :=
  { start ex3 0 with params := { params ex3 with intW := intW }, pending := [r] }

/-- The same, under LOW6. -/
def low6 (r : Request) : State :=
  { start ex3 0 with params := { params ex3 with addrField := .low6 }, pending := [r] }

/-- The state an outcome goes on in, for the tests to look into. -/
def result : Host.Outcome State Fault Refusal → Option State
  | .next t => some t
  | _ => none

/-- One operation. -/
def after (i : Instr) (s : State) : Option State := result (exec i s)

/-- The first bytes of the buffer. -/
def bytes (n : Nat) (t : Option State) : Option (List Byte) := t.map fun t => t.buf.toList.take n

/-- The frames of a state. -/
def framesOf (t : Option State) : Option (List (List Bool)) := t.map State.frames

/-- What an operation returned. -/
def replyOf (t : Option State) : Option Byte := t.bind State.reply

/-! ## WellFormed: an ill-formed term for each check is refused -/

theorem test_wf_text_too_long : WellFormed (.dispstr (List.replicate 16 0)) = false := by decide
theorem test_wf_text_lost_character : WellFormed (.dispstr [0x31, 0x32, 0x33, 0x34]) = false := by decide
theorem test_wf_int_high : WellFormed (.dispint 32768) = false ∧ WellFormed (.disphex 32768) = false := by decide
theorem test_wf_int_low : WellFormed (.dispint (-32769)) = false ∧ WellFormed (.disphex (-32769)) = false := by decide
theorem test_wf_good : WellFormed (.dispstr (List.replicate 15 0)) = true ∧ WellFormed (.dispstr [0x31, 0x32, 0x33]) = true ∧
    WellFormed (.dispint (-32768)) = true ∧ WellFormed (.disphex 32767) = true := by decide

/-! ## Decoding: a word written out from the spec's encoding, for every constructor (30_encoding.md R52 to R54) -/

theorem test_decode_wrcmd : decode (.host 0x100000A5) = .ok (.wrcmd 0xA5) := by decide
theorem test_decode_wraddr : decode (.host 0x2000070F) = .ok (.wraddr 7 0xF) := by decide -- P3
theorem test_decode_setbit : decode (.host 0x30001F80) = .ok (.setbit ⟨31, 0x80⟩) := by decide -- P4
theorem test_decode_clrbit : decode (.host 0x40001F80) = .ok (.clrbit ⟨31, 0x80⟩) := by decide -- P4
theorem test_decode_fill : decode (.host 0x500000FF) = .ok (.fill 0xFF) := by decide -- P2
theorem test_decode_rdbyte : decode (.host 0x60001F00) = .ok (.rdbyte 31) := by decide -- P4
theorem test_decode_wrbyte : decode (.host 0x7000C8AA) = .ok (.wrbyte 200 0xAA) := by decide -- P4
theorem test_decode_flush : decode (.host 0x80000000) = .ok .flush := by decide -- P1
theorem test_decode_pattern : decode (.host 0x90000030) = .ok (.pattern 0x30) := by decide
theorem test_decode_blset : decode (.host 0xA0000001) = .ok (.blset true) ∧ decode (.host 0xA00000FE) = .ok (.blset false) := by
  decide
theorem test_decode_init : decode (.host 0xB0000000) = .ok .init := by decide -- P1
theorem test_decode_dispstr : decode (.host 0xC1350000) = .ok (.dispstr [0x35]) ∧ -- P1
    decode (.host 0xC3313233) = .ok (.dispstr [0x31, 0x32, 0x33]) ∧ -- P5
    decode (.host 0xC4313233) = .ok (.dispstr [0x31, 0x32, 0x33, 0]) := by decide -- P5; log entry 14
theorem test_decode_dispint : decode (.host 0xD000FFFB) = .ok (.dispint (-5)) := by decide -- P5
theorem test_decode_disphex : decode (.host 0xE00000FF) = .ok (.disphex 255) := by decide -- P2
theorem test_decode_frame_cmd : decode (.wire [true, false, false, true, false, true, false, false, true, false, true]) =
    .ok (.frameCmd 0xA5) := by decide -- V8
theorem test_decode_frame_data :
    decode (.wire [true, false, true, false, false, false, true, false, true, true, true, false, false]) =
      .ok (.frameData 5 0xC) := by decide -- V13
theorem test_decode_reserved : decode (.host 0x0FFFFFFF) = .error (.reservedOp 0x0) ∧
    decode (.host 0xF0000000) = .error (.reservedOp 0xF) := by decide -- R61
theorem test_decode_not_a_frame : decode (.wire [true, true, false]) = .error (.notAFrame [true, true, false]) := by decide
theorem test_table_word : decodeTableWord 32 0x500000FF = some (.fill 0xFF) ∧
    decodeTableWord 16 0b10010100101 = some (.frameCmd 0xA5) ∧
    decodeTableWord 16 0b1010001011100 = some (.frameData 5 0xC) ∧ decodeTableWord 16 0xFFFF = none := by decide

/-! ## Fetching: the very next step runs the word -/

theorem test_fetch_host : (result (step ((start ex3 0).withFetchWord 32 0x500000FF))).map (fun t => (t.buf.toList, t.pending)) =
    some (List.replicate 32 0xFF, []) := by decide

/-- 30_encoding.md R51: the block never decodes the frame of V13, which is taken off the requests and changes nothing. -/
theorem test_fetch_frame : step ((start ex3 0).withFetchWord 16 0b1010001011100) = .next (start ex3 0) := rfl

/-! ## The bus -/

/-- V8: the frame `10010100101`, DATA ends 1, 35 events. -/
theorem test_wrcmd : (after (.wrcmd 0xA5) (start ex3 0)).map (fun t => (t.frames, t.lines.data, t.events.length)) =
    some ([[true, false, false, true, false, true, false, false, true, false, true]], true, 35) := by decide

/-- V4: the first events, the last one, and their number; V13: the frame. -/
theorem test_wraddr : (after (.wraddr 5 0xC) (start ex3 0)).map (fun t => (t.lineTrace.take 7, t.lineTrace.getLast?,
      t.events.length, t.frames)) =
    some ([⟨.cs, false⟩, ⟨.data, true⟩, ⟨.clk, false⟩, ⟨.clk, true⟩, ⟨.data, false⟩, ⟨.clk, false⟩, ⟨.clk, true⟩],
      some ⟨.cs, true⟩, 41, [[true, false, true, false, false, false, true, false, true, true, true, false, false]]) := by
  decide

/-- V16 and V20: the last buffer address, and a wrap out of contract; V15 under LOW6. -/
theorem test_address_field : addrField .top6 31 = 31 ∧ addrField .top6 64 = 0 ∧ addrField .low6 16 = 0 ∧
    addrField .low6 5 = 20 := by decide

/-- V22. -/
theorem test_blset : (after (.blset true) (start ex3 0)).map (fun t => (t.lineTrace, t.lines.bl)) =
    some ([⟨.bl, true⟩], true) := by decide

/-- V25. -/
theorem test_blset_absent : (after (.blset true)
      { start ex3 0 with params := { params ex3 with hasBacklight := false } }).map State.lineTrace = some [] := by decide

/-- 30_encoding.md R50, R51: the frame of V8 is no operation and changes nothing. -/
theorem test_frame_cmd : exec (.frameCmd 0xA5) (start ex3 0) = .next (start ex3 0) := rfl

/-- R50, R51: the frame of V13 is no operation and changes nothing. -/
theorem test_frame_data : exec (.frameData 5 0xC) (start ex3 0) = .next (start ex3 0) := rfl

/-! ## The buffer -/

/-- V26. -/
theorem test_setbit : bytes 7 (after (.setbit ⟨5, 0x40⟩) (startAt 5 0x10)) = some [0, 0, 0, 0, 0, 0x50, 0] := by decide

/-- V36: the first bad address. -/
theorem test_setbit_out_of_range : bytes 32 (after (.setbit ⟨32, 0x80⟩) (start ex3 0x0F)) =
    some (List.replicate 32 0x0F) := by decide

/-- V28. -/
theorem test_clrbit : bytes 7 (after (.clrbit ⟨5, 0x40⟩) (startAt 5 0xF0)) = some [0, 0, 0, 0, 0, 0xB0, 0] := by decide

/-- V33: a mask in the bottom nibble. -/
theorem test_clrbit_bottom : bytes 6 (after (.clrbit ⟨4, 0x0F⟩) (startAt 4 0x8F)) = some [0, 0, 0, 0, 0x80, 0] := by decide

/-- V39 to V41. -/
theorem test_fill : bytes 32 (after (.fill 0xA5) (start ex3 0)) = some (List.replicate 32 0xA5) := by decide

/-- V43, V39: the byte at the last address. -/
theorem test_rdbyte : replyOf (after (.rdbyte 31) (startAt 31 0x5A)) = some 0x5A := by decide

/-- V42: an address of 32 returns some byte and takes one draw. -/
theorem test_rdbyte_out_of_range : (after (.rdbyte 32) (start ex3 0xA5)).map (fun t => (t.reply.isSome, t.draws)) =
    some (true, 1) := by decide

/-- V43, V44. -/
theorem test_wrbyte : bytes 5 (after (.wrbyte 3 0x5A) (start ex3 0)) = some [0, 0, 0, 0x5A, 0] := by decide

/-- V46. -/
theorem test_wrbyte_out_of_range : bytes 32 (after (.wrbyte 200 0xAA) (start ex3 0)) = some (List.replicate 32 0) := by decide

/-- V49: the number of frames, frames 0, 5 and 31. -/
theorem test_flush : (framesOf (after .flush (startAt 5 0x40))).map (fun f => (f.length, f[0]?, f[5]?, f[31]?)) =
    some (32, some (dataFrame 0 0), some [true, false, true, false, false, false, true, false, true, false, true, false, false],
      some [true, false, true, false, true, true, true, true, true, false, false, false, false]) := by decide +kernel

/-- V51: the bottom nibble is never sent. -/
theorem test_flush_bottom : framesOf (after .flush (start ex3 0x0F)) = framesOf (after .flush (start ex3 0)) := by
  decide +kernel

/-! ## The character ROM -/

/-- V55 to V58, the pinned entries; V62, supplied. -/
theorem test_pattern : [0x30, 0x38, 0x20, 0x41, 0x46].map (fun c => replyOf (after (.pattern c) (start ex3 0))) =
    [some 0x7E, some 0x7F, some 0x00, some 0x77, some 0x47] := by decide +kernel

/-- V59 to V61: from 128 on, 0; the code is not masked. -/
theorem test_pattern_out_of_range : [0x80, 0xB0, 0xFF].map (fun c => replyOf (after (.pattern c) (start ex3 0))) =
    [some 0, some 0, some 0] := by decide +kernel

/-! ## The digit composer -/

/-- V94. -/
theorem test_dispstr : bytes 6 (after (.dispstr [0x35]) (start ex3 0)) = some [0, 0, 0, 0, 0xB0, 0x60] := by decide +kernel

/-- V104: on two digits the third character is dropped. -/
theorem test_dispstr_two_digits : bytes 6 (after (.dispstr [0x31, 0x32, 0x33]) (start ex2 0)) =
    some [0x60, 0x00, 0xD0, 0xA0, 0, 0] := by decide +kernel

/-- V108: the blank phase leaves the bits that no digit has. -/
theorem test_dispstr_blank : bytes 7 (after (.dispstr [0x31, 0x32, 0x33, 0x34]) (start ex3 0xFF)) =
    some [0x0F, 0x1F, 0x0F, 0x1F, 0x0F, 0x1F, 0xFF] := by decide +kernel

/-- V80, V96. -/
theorem test_dispint : bytes 6 (after (.dispint 42) (start ex3 0)) = some [0, 0, 0x60, 0x60, 0xD0, 0xA0] := by decide +kernel

/-- V83, V102. -/
theorem test_dispint_negative : bytes 6 (after (.dispint (-5)) (start ex3 0)) = some [0, 0, 0, 0x20, 0xB0, 0x60] := by decide +kernel

/-- V86, V92, V93: the texts at the ends. -/
theorem test_number_texts : decText (-32768) = [0x2D, 0x33, 0x32, 0x37, 0x36, 0x38] ∧ decText 0 = [0x30] ∧
    hexText 16 (-5) = [0x46, 0x46, 0x46, 0x42] ∧ hexText 16 4095 = [0x46, 0x46, 0x46] := by decide +kernel

/-- V89, P2. -/
theorem test_disphex : bytes 7 (after (.disphex 255) (start ex3 0xFF)) =
    some [0x0F, 0x1F, 0x8F, 0xFF, 0x8F, 0xFF, 0xFF] := by decide +kernel

/-- V92: a negative value renders blank. -/
theorem test_disphex_negative : bytes 7 (after (.disphex (-1)) (start ex3 0xFF)) =
    some [0x0F, 0x1F, 0x0F, 0x1F, 0x0F, 0x1F, 0xFF] := by decide +kernel

/-! ## The startup sequence -/

/-- P1 step 1: 38 frames, the first and the seventh. -/
theorem test_init_frames : (framesOf (after .init (start ex3 0xFF))).map (fun f => (f.length, f[0]?, f[6]?)) =
    some (38, some [true, false, false, false, false, false, true, false, false, false, true], some (dataFrame 0 0)) := by
  decide +kernel

/-- P1 step 1: 1522 events, and a buffer of zeros. -/
theorem test_init_buffer : (after .init (start ex3 0xFF)).map (fun t => (t.events.length, t.buf.toList)) =
    some (1522, List.replicate 32 0) := by decide +kernel

/-! ## Witnesses: concrete states and operands that meet the hypotheses of the statements -/

/-- Idle; a call; a packet; a packet of an integer operation with INT_W = 16. -/
theorem witness_StepRunsThePresentedOperation :
    (start ex3 0).pending = [] ∧ (asked (.call .flush)).pending = .call .flush :: [] ∧
    ((asked (.packet (.host 0x80000000))).pending = .packet (.host 0x80000000) :: [] ∧
      decode (.host 0x80000000) = .ok .flush ∧ WellFormed .flush = true ∧ needsIntWord .flush = false) ∧
    (decode (.host 0xD000FFFB) = .ok (.dispint (-5)) ∧ WellFormed (.dispint (-5)) = true ∧
      needsIntWord (.dispint (-5)) = true ∧ (asked (.packet (.host 0xD000FFFB))).params.intW = 16) := by decide

/-- One operation of each check of WellFormed, at the ends of its range. -/
theorem witness_DecodeOfEncode : WellFormed (.dispstr (List.replicate 15 0)) = true ∧ WellFormed (.dispint (-32768)) = true ∧
    WellFormed (.disphex 32767) = true ∧ WellFormed .flush = true := by decide

/-- A packet that decodes; the first and the last `op` that do, and those next to them that do not. -/
theorem witness_DecodeIsTotalAndWellFormed : decode (.host 0x80000000) = .ok .flush ∧ wordOp 0x10000000 = 0x1 ∧
    wordOp 0xEFFFFFFF = 0xE ∧ wordOp 0x0FFFFFFF = 0x0 ∧ wordOp 0xF0000000 = 0xF := by decide

/-- A string that its word cannot carry whole, and an integer at the end of the range. -/
theorem witness_PortWordKeepsTheMeaning : fitsPort (.dispstr [0x31, 0x32, 0x33, 0x34]) = true ∧
    WellFormed (.dispstr [0x31, 0x32, 0x33, 0x34]) = false ∧ fitsPort (.dispint (-32768)) = true := by decide

/-- Both reserved values. -/
theorem witness_ReservedOpsAreIgnored :
    ((asked (.packet (.host 0x0FFFFFFF))).pending = .packet (.host 0x0FFFFFFF) :: [] ∧ wordOp 0x0FFFFFFF = 0x0) ∧
    ((asked (.packet (.host 0xF0000000))).pending = .packet (.host 0xF0000000) :: [] ∧ wordOp 0xF0000000 = 0xF) := by decide

/-- Both outcomes are reached: a next state, and the refusal of an integer word with INT_W = 20. -/
theorem witness_StepStopsOnlyAtThePort : step (start ex3 0) = .next (start ex3 0) ∧
    step (wide 20 (.packet (.host 0xD0000005))) = .refused (.intWordUndefined 20) := ⟨rfl, rfl⟩

/-- A read in range and a pattern. -/
theorem witness_OnlyReadsReturnValues :
    (∃ t v, exec (.rdbyte 31) (startAt 31 0x5A) = .next t ∧ t.reply = some v) ∧
    (∃ t v, exec (.pattern 0x30) (start ex3 0) = .next t ∧ t.reply = some v) := ⟨⟨_, _, rfl, rfl⟩, ⟨_, _, rfl, rfl⟩⟩

theorem quiescent_start (digits : Bindings) (v : Byte) : Quiescent (start digits v) :=
  ⟨rfl, rfl, rfl, rfl, fun f hf => absurd hf (by simp [start, State.frames, State.lineTrace, observe, Observer.atReset])⟩

theorem quiescent_asked (r : Request) : Quiescent (asked r) :=
  ⟨rfl, rfl, rfl, rfl, fun f hf => absurd hf (by simp [asked, start, State.frames, State.lineTrace, observe, Observer.atReset])⟩

/-- A quiescent state with a request, and the step it takes. -/
theorem witness_StepKeepsQuiescence :
    ∃ t, Quiescent (asked (.call (.fill 7))) ∧ step (asked (.call (.fill 7))) = .next t := ⟨_, quiescent_asked _, rfl⟩

theorem witness_NoOperationChangesAParameter : ∃ t, step (asked (.call (.fill 7))) = .next t := ⟨_, rfl⟩

theorem lawful_params : LawfulParams (params ex3) :=
  ⟨by decide, by decide, by decide +kernel, by decide +kernel, by decide +kernel, by decide +kernel⟩

/-- Lawful parameters, and a step. -/
theorem witness_ParameterLawsHoldThroughout :
    ∃ t, LawfulParams (asked (.call (.fill 7))).params ∧ step (asked (.call (.fill 7))) = .next t := ⟨_, lawful_params, rfl⟩

theorem witness_LineTraceOnlyGrows : ∃ t, step (asked (.call (.wrcmd 7))) = .next t := ⟨_, rfl⟩

/-- A word for every `op` the statements read one of. -/
theorem witness_HostOp : [0x100000A5, 0x2000070F, 0x30001F80, 0x40001F80, 0x500000FF, 0x60001F00, 0x7000C8AA, 0x80000000,
    0x90000030, 0xA0000001, 0xB0000000, 0xC1350000, 0xD000FFFB, 0xE00000FF].map wordOp =
      [0x1, 0x2, 0x3, 0x4, 0x5, 0x6, 0x7, 0x8, 0x9, 0xA, 0xB, 0xC, 0xD, 0xE] := by decide

theorem witness_WrcmdSendsOneCommandFrame : Quiescent (start ex3 0) := quiescent_start _ _

/-- The last address in range, the first beyond, and the last of all have a data frame; the state is quiescent. -/
theorem witness_WraddrSendsOneDataFrame : Quiescent (start ex3 0) ∧
    framesOf (after (.wraddr 31 0xF) (start ex3 0)) = some [dataFrame 31 0xF] ∧
    framesOf (after (.wraddr 32 0xA) (start ex3 0)) = some [dataFrame 32 0xA] ∧
    framesOf (after (.wraddr 255 0xA) (start ex3 0)) = some [dataFrame 63 0xA] :=
  ⟨quiescent_start _ _, by decide, by decide, by decide⟩

theorem witness_AddressFieldPlacement : (0 : Byte).toNat < 32 ∧ (31 : Byte).toNat < 32 := by decide

/-- With the line and without it. -/
theorem witness_BlsetDrivesTheBacklight : (start ex3 0).params.hasBacklight = true ∧
    ({ start ex3 0 with params := { params ex3 with hasBacklight := false } } : State).params.hasBacklight = false := by decide

/-- Frame bits, and bits that are no frame. -/
theorem witness_FramesPresentedChangeNothing :
    (asked (.packet (.wire (cmdFrame 0xA5)))).pending = .packet (.wire (cmdFrame 0xA5)) :: [] ∧
    (asked (.packet (.wire [true, true, false]))).pending = .packet (.wire [true, true, false]) :: [] := ⟨rfl, rfl⟩

/-- A quiescent state with no frame yet, and a step that sends one. -/
theorem witness_EveryFrameIsOneAnOperationSends :
    ∃ t, Quiescent (asked (.call (.wraddr 32 0xA))) ∧
      (∀ f ∈ (asked (.call (.wraddr 32 0xA))).frames, SentFrame (asked (.call (.wraddr 32 0xA))).params f) ∧
      step (asked (.call (.wraddr 32 0xA))) = .next t := ⟨_, quiescent_asked _, fun _ hf => (by cases hf), rfl⟩

/-- The same under LOW6: the frame of V16, whose field is 60. -/
theorem witness_Low6FieldsAreMultiplesOfFour :
    ∃ t, Quiescent (low6 (.call (.wraddr 31 0xF))) ∧ (low6 (.call (.wraddr 31 0xF))).params.addrField = .low6 ∧
      (∀ f n, dataFrame f n ∈ (low6 (.call (.wraddr 31 0xF))).frames → f.toNat % 4 = 0) ∧
      step (low6 (.call (.wraddr 31 0xF))) = .next t ∧ t.frames = [dataFrame 60 0xF] :=
  ⟨_, ⟨rfl, rfl, rfl, rfl, fun _ hf => (by cases hf)⟩, rfl, fun _ _ hf => (by cases hf), rfl, by decide⟩

theorem witness_CanonicalEventCounts :
    (∃ t, exec (.wrcmd 1) (start ex3 0) = .next t) ∧ (∃ t, exec (.wraddr 32 1) (start ex3 0) = .next t) ∧
    (∃ t, exec .flush (start ex3 0) = .next t) ∧ (∃ t, exec .init (start ex3 0) = .next t) :=
  ⟨⟨_, rfl⟩, ⟨_, rfl⟩, ⟨_, rfl⟩, ⟨_, rfl⟩⟩

/-- V4's variant: each event repeated in place, and an event at the reset level before any other. -/
theorem witness_EquivalentTracesDecodeAlike :
    TraceEquiv [⟨.cs, true⟩, ⟨.cs, false⟩, ⟨.cs, false⟩, ⟨.clk, false⟩, ⟨.clk, true⟩, ⟨.clk, true⟩, ⟨.cs, true⟩]
      [⟨.cs, false⟩, ⟨.clk, false⟩, ⟨.clk, true⟩, ⟨.cs, true⟩] := rfl

theorem witness_OnlyBusOperationsDriveLines : drivesLines (.dispstr [0x31]) = false ∧
    ∃ t, exec (.dispstr [0x31]) (start ex3 0) = .next t := ⟨rfl, _, rfl⟩

theorem witness_OnlyBlsetMovesTheBacklight : (∀ level, Instr.flush ≠ .blset level) ∧
    ∃ t, exec .flush (start ex3 0) = .next t := ⟨fun _ h => (by cases h), _, rfl⟩

/-- The last address in range and the first out of it. -/
theorem witness_RdbyteReturnsTheByte : (31 : Byte).toNat < 32 ∧ 32 ≤ (32 : Byte).toNat ∧
    (startAt 31 0x5A).readByte? 31 = some 0x5A ∧ (startAt 31 0x5A).readByte? 32 = none := by decide

theorem witness_FlushSendsEveryTopNibble : Quiescent (startAt 31 0xF0) ∧ (startAt 31 0xF0).readByte? 31 = some 0xF0 :=
  ⟨⟨rfl, rfl, rfl, rfl, fun f hf => absurd hf
    (by simp [startAt, start, State.frames, State.lineTrace, observe, Observer.atReset])⟩, by decide⟩

theorem witness_OutOfRangeAddressesAreIgnored : 32 ≤ (32 : Byte).toNat ∧ 32 ≤ (255 : Byte).toNat := by decide

theorem witness_ReadBackLaws : (0 : Byte).toNat < 32 ∧ (31 : Byte).toNat < 32 := by decide

/-- Each of the five shapes, a SETBIT and a DISPHEX among them. -/
theorem witness_BufferWritesAreIdempotent :
    (∃ g t, exec (.setbit g) (start ex3 0) = .next t) ∧ (∃ v t, exec (.fill v) (start ex3 0) = .next t) ∧
    (∃ a v t, exec (.wrbyte a v) (start ex3 0) = .next t) ∧ (∃ x t, exec (.dispstr x) (start ex3 0) = .next t) ∧
    (∃ n t, exec (.disphex n) (start ex3 0) = .next t) :=
  ⟨⟨⟨31, 0x80⟩, _, rfl⟩, ⟨7, _, rfl⟩, ⟨32, 7, _, rfl⟩, ⟨[0x31], _, rfl⟩, ⟨255, _, rfl⟩⟩

theorem witness_BusOperationsLeaveTheBuffer : leavesBuf (.rdbyte 32) = true ∧
    ∃ t, exec (.rdbyte 32) (start ex3 0) = .next t := ⟨rfl, _, rfl⟩

/-- V51's two buffers: they differ in every bottom nibble. -/
theorem witness_BottomNibblesNeverReachTheBus :
    ∃ t, TopAgree (asked (.call .flush)) { asked (.call .flush) with buf := Vector.replicate 32 0x0F } ∧
      (asked (.call .flush)).buf ≠ Vector.replicate 32 0x0F ∧ step (asked (.call .flush)) = .next t :=
  ⟨_, ⟨rfl, rfl, rfl, rfl, rfl, by decide +kernel⟩, by decide, rfl⟩

/-- The last code with an entry and the first without. -/
theorem witness_PatternReadsTheTable : (127 : Byte).toNat < 128 ∧ 128 ≤ (128 : Byte).toNat := by decide

theorem witness_PinnedCharacterPatterns : State.reset.params = builtParams := rfl

theorem wellBound_ex3 : WellBound (start ex3 0).params := by unfold WellBound; decide +kernel

/-- EX3 is well bound, and SEG G of its last digit is bound. -/
theorem witness_DispstrShowsTheText : WellBound (start ex3 0).params ∧ 2 < (start ex3 0).params.display.digits.count ∧
    bindingAt (start ex3 0).params 2 6 ≠ .nul := ⟨wellBound_ex3, by decide, by decide⟩

/-- V108: bit 0x10 of address 1 belongs to no segment; of address 0, to SEG D of digit 0. -/
theorem witness_RendersTouchOnlyBoundSegments :
    (∀ g ∈ boundSegs (start ex3 0).params, ¬(g.address = 1 ∧ g.mask.getLsbD 4 = true)) ∧
    (∃ g ∈ boundSegs (start ex3 0).params, g.address = 0 ∧ g.mask.getLsbD 4 = true) := by decide +kernel

/-- Both digit counts, and both lengths next to those that are shown. -/
theorem witness_PaddingQuirk : (start ex3 0).params.display.digits.count = 3 ∧ (start ex2 0).params.display.digits.count = 2 ∧
    ([] : List Byte).length = 0 ∧ 3 < ([0x31, 0x32, 0x33, 0x34] : List Byte).length := by decide

theorem witness_NumberTextIsExact : natText 10 0 = [0x30] ∧ natText 10 1000 = [0x31, 0x30, 0x30, 0x30] ∧
    natText 16 0xFFFB = [0x46, 0x46, 0x46, 0x42] ∧ IsDigitOf 16 0x46 := by unfold IsDigitOf; decide +kernel

/-- The ends of the range of 16 bits, and the values next to those that are shown. -/
theorem witness_DispintRendersTheDecimalText : LawfulParams (start ex3 0).params ∧
    ∀ i ∈ [-32768, -100, -99, -1, 0, 999, 1000, 32767], InIntRange (start ex3 0).params.intW i :=
  ⟨lawful_params, by unfold InIntRange; decide⟩

theorem witness_DisphexRendersTheHexText : LawfulParams (start ex3 0).params ∧
    ∀ i ∈ [-32768, -1, 0, 4095, 4096, 32767], InIntRange (start ex3 0).params.intW i :=
  ⟨lawful_params, by unfold InIntRange; decide⟩

theorem witness_InitRunsTheStartupSequence : Quiescent (start ex3 0xFF) := quiescent_start _ _

theorem witness_ReceiverHoldsTheBufferAfterFlush : Quiescent (start ex3 0xF0) ∧ (start ex3 0xF0).params.addrField = .top6 ∧
    (31 : Byte).toNat < 32 := ⟨quiescent_start _ _, rfl, by decide⟩

theorem witness_DirectWriteIsOverwrittenByFlush : Quiescent (start ex3 0) ∧ (start ex3 0).params.addrField = .top6 ∧
    (7 : Byte).toNat < 32 := ⟨quiescent_start _ _, rfl, by decide⟩

theorem witness_RenderThenFlushReachesTheReceiver : Quiescent (start ex3 0) ∧ WellBound (start ex3 0).params ∧
    (start ex3 0).params.addrField = .top6 ∧ bindingAt (start ex3 0).params 0 0 ≠ .nul :=
  ⟨quiescent_start _ _, wellBound_ex3, rfl, by decide⟩

end Sys2Proof.Tests
end

section
/-! Proofs of the family 10_state.md: the construction-time parameters (R25). -/

namespace Sys2Proof.Machine

/-- Settles O13: among what a step can do (`step_drove`, which rests on the case split `exec_drove` over the operations) is
that it drives line events and leaves the parameters alone. -/
theorem noOperationChangesAParameter : Obligations.NoOperationChangesAParameter := by
  intro s t h
  obtain ⟨_, hparams, _⟩ := step_drove h
  exact hparams

end Sys2Proof.Machine
end

section
/-! Proofs of the family 41_segment_buffer.md: the four operations that write the buffer, SETBIT, CLRBIT, FILL and WRBYTE
(R90, R91, R92, R94). Each comes down to what every byte reads after it (Laws/Buffer.lean) and to `BufOnly`, its frame. -/

namespace Sys2Proof.Machine

/-! ## The host-port words of the four operations (30_encoding.md R54, R60) -/

theorem hostOp_setbit : HostOp 0x3 (fun w => .setbit ⟨wordB1 w, wordB0 w⟩) := by
  intro w hop
  simp [decode, decodeHost, hop]

theorem hostOp_clrbit : HostOp 0x4 (fun w => .clrbit ⟨wordB1 w, wordB0 w⟩) := by
  intro w hop
  simp [decode, decodeHost, hop]

theorem hostOp_fill : HostOp 0x5 (fun w => .fill (wordB0 w)) := by
  intro w hop
  simp [decode, decodeHost, hop]

theorem hostOp_wrbyte : HostOp 0x7 (fun w => .wrbyte (wordB1 w) (wordB0 w)) := by
  intro w hop
  simp [decode, decodeHost, hop]

/-! ## What the four operations have in common -/

/-- An operation that only writes the buffer, and answers nothing, completes and leaves all else as it was; `contents` is what
every address reads after it. -/
theorem BufOnly.completes {i : Instr} {s u : State} {contents : Byte → Option Byte} (hbuf : BufOnly s u)
    (hexec : exec i s = .next (u.answer none)) (hread : ∀ x, u.readByte? x = contents x) :
    ∃ t, exec i s = .next t ∧ (∀ x, t.readByte? x = contents x) ∧ SameLines s t ∧ SameRest s t ∧ t.reply = none :=
  ⟨u.answer none, hexec, hread, hbuf.sameLines, hbuf.sameRest, rfl⟩

/-- A value put in place of whatever a byte reads is there exactly where the address is in range (R96). -/
theorem State.readByte?_map_const (s : State) (x v : Byte) :
    (s.readByte? x).map (fun _ => v) = if x.toNat < bufSize then some v else none := by
  split
  · rename_i hlt
    obtain ⟨old, hold⟩ := s.readByte?_of_lt hlt
    rw [hold, Option.map_some]
  · rename_i hge
    rw [(s.readByte?_eq_none x).mpr (Nat.le_of_not_lt hge), Option.map_none]

/-- `State.writeByte_readByte?` with the bounds check of WRBYTE written out (R94, R96). -/
theorem State.writeByte_readByte?_of_range (a v : Byte) (s : State) (x : Byte) :
    (s.writeByte a v).readByte? x = if x = a ∧ a.toNat < bufSize then some v else s.readByte? x := by
  rw [State.writeByte_readByte?, State.readByte?_map_const]
  by_cases hx : x = a
  · subst hx
    by_cases hlt : x.toNat < bufSize
    · simp [hlt]
    · simp [hlt, (s.readByte?_eq_none x).mpr (Nat.le_of_not_lt hlt)]
  · simp [hx]

/-! ## The obligations -/

/-- Settles O27, by the read rule of SETBIT (`State.setBit_readByte?`) and its frame (`State.setBit_bufOnly`). -/
theorem setbitOrsTheMask : Obligations.SetbitOrsTheMask :=
  ⟨hostOp_setbit, fun g s => (State.setBit_bufOnly g s).completes (exec_setbit g s) (State.setBit_readByte? g s)⟩

/-- Settles O28, by the read rule of CLRBIT (`State.clrBit_readByte?`) and its frame (`State.clrBit_bufOnly`). -/
theorem clrbitAndNotsTheMask : Obligations.ClrbitAndNotsTheMask :=
  ⟨hostOp_clrbit, fun g s => (State.clrBit_bufOnly g s).completes (exec_clrbit g s) (State.clrBit_readByte? g s)⟩

/-- Settles O29: after FILL every byte reads the value in place of what it read before, which there is below 32 only. -/
theorem fillSetsEveryByte : Obligations.FillSetsEveryByte := by
  refine ⟨hostOp_fill, fun v s => (State.fillBuf_bufOnly v s).completes (exec_fill v s) fun x => ?_⟩
  rw [State.fillBuf_readByte?, State.readByte?_map_const]

/-- Settles O30, by the read rule of a byte write with its bounds check (`State.writeByte_readByte?_of_range`) and its frame
(`State.writeByte_bufOnly`). -/
theorem wrbyteStoresTheByte : Obligations.WrbyteStoresTheByte :=
  ⟨hostOp_wrbyte, fun a v s =>
    (State.writeByte_bufOnly a v s).completes (exec_wrbyte a v s) (State.writeByte_readByte?_of_range a v s)⟩

end Sys2Proof.Machine
end

section
/-! Proofs of the family 42_char_rom.md: PATTERN reads the character ROM (R110), and the four entries the source gives (R111). -/

namespace Sys2Proof.Machine

/-! ## The look-up and its operation -/

theorem hostOp_pattern : HostOp 0x9 (fun w => .pattern (wordB0 w)) := by
  intro w hop
  simp [decode, decodeHost, hop]

theorem patternFor_of_lt (rom : Vector Pattern romSize) {code : Byte} (h : code.toNat < romSize) :
    patternFor rom code = rom[code.toNat] := by
  rw [patternFor, Vector.getElem?_eq_getElem h, Option.getD_some]

theorem patternFor_of_le (rom : Vector Pattern romSize) {code : Byte} (h : romSize ≤ code.toNat) :
    patternFor rom code = 0 := by
  rw [patternFor, Vector.getElem?_eq_none h, Option.getD_none]

/-- Settles O38: PATTERN only answers the host, so its frame is that of `State.answer`; the value is the look-up, in range
(`patternFor_of_lt`) and out of range (`patternFor_of_le`), widened by a clear bit 7. -/
theorem patternReadsTheTable : Obligations.PatternReadsTheTable := by
  refine ⟨hostOp_pattern, fun c s => ⟨_, _, exec_pattern c s, State.answer_reply .., ?bit7, fun h => ?inRange,
    fun h => ?outOfRange, fun _ => State.answer_readByte? .., ⟨State.answer_lines .., State.answer_lineTrace ..⟩,
    ⟨State.answer_params .., State.answer_pending .., State.answer_draws ..⟩⟩⟩
  case bit7 => simp
  case inRange => rw [patternFor_of_lt _ h]
  case outOfRange => rw [patternFor_of_le _ h]; rfl

/-! ## The table with some entries replaced -/

theorem withEntries_getElem?_of_notMem {entries : List (Nat × Pattern)} {c : Nat} (h : c ∉ entries.map Prod.fst)
    (rom : Vector Pattern romSize) : (withEntries rom entries)[c]? = rom[c]? := by
  induction entries generalizing rom with
  | nil => rfl
  | cons e es ih =>
    obtain ⟨hne, htail⟩ := not_or.mp (List.mem_cons.not.mp h)
    calc (withEntries rom (e :: es))[c]?
        = (rom.setIfInBounds e.1 e.2)[c]? := ih htail _
      _ = rom[c]? := Vector.getElem?_setIfInBounds_ne (Ne.symm hne)

/-- An entry stands in the table where the list gives no code twice: nothing later in it overwrites the entry. -/
theorem withEntries_getElem?_of_mem {entries : List (Nat × Pattern)} {c : Nat} {p : Pattern}
    (hnodup : (entries.map Prod.fst).Nodup) (hmem : (c, p) ∈ entries) (hc : c < romSize) (rom : Vector Pattern romSize) :
    (withEntries rom entries)[c]? = some p := by
  induction entries generalizing rom with
  | nil => cases hmem
  | cons e es ih =>
    obtain ⟨hfresh, htail⟩ := List.nodup_cons.mp hnodup
    cases hmem with
    | head =>
      calc (withEntries rom ((c, p) :: es))[c]?
          = (rom.setIfInBounds c p)[c]? := withEntries_getElem?_of_notMem hfresh _
        _ = some p := Vector.getElem?_setIfInBounds_self_of_lt hc
    | tail _ hmem => exact ih htail hmem _

/-! ## The pinned entries -/

theorem pinnedEntries_nodup : (pinnedEntries.map Prod.fst).Nodup := by decide

theorem builtParams_rom : builtParams.rom = openRom := by rw [builtParams]

theorem patternFor_openRom_of_pinned {code : Byte} {p : Pattern} (hmem : (code.toNat, p) ∈ pinnedEntries)
    (hc : code.toNat < romSize) : patternFor openRom code = p := by
  rw [patternFor, openRom, withEntries_getElem?_of_mem pinnedEntries_nodup hmem hc, Option.getD_some]

/-- In the block as built, PATTERN of a pinned code returns its entry, zero-extended (R110, R111). -/
theorem exec_pattern_of_pinned {s : State} {code : Byte} {p : Pattern} (hs : s.params = builtParams)
    (hmem : (code.toNat, p) ∈ pinnedEntries) (hc : code.toNat < romSize) :
    ∃ t, exec (.pattern code) s = .next t ∧ t.reply = some (p.zeroExtend 8) := by
  refine ⟨_, exec_pattern code s, ?_⟩
  rw [State.answer_reply, hs, builtParams_rom, patternFor_openRom_of_pinned hmem hc]

/-- Settles O39: each of the four codes is pinned (`exec_pattern_of_pinned`). -/
theorem pinnedCharacterPatterns : Obligations.PinnedCharacterPatterns := by
  intro s hs
  refine ⟨?zero, ?eight, ?space, ?letterA⟩
  case zero => exact exec_pattern_of_pinned (p := 0b1111110) hs (by decide) (by decide)
  case eight => exact exec_pattern_of_pinned (p := 0b1111111) hs (by decide) (by decide)
  case space => exact exec_pattern_of_pinned (p := 0) hs (by decide) (by decide)
  case letterA => exact exec_pattern_of_pinned (p := 0b1110111) hs (by decide) (by decide)

end Sys2Proof.Machine
end

section
/-! Proofs of the family 60_exceptions.md: no operation faults, sticks or refuses (R140). -/

namespace Sys2Proof.Machine

/-- Settles O8: the case split `exec_drove` over the sixteen rows names the next state of each, for every operand and state,
together with the line events on the way to it, which R140 does not ask for. -/
theorem everyOperationCompletes : Obligations.EveryOperationCompletes := by
  intro i s
  obtain ⟨_, t, hexec, _⟩ := exec_drove i s
  exact ⟨t, hexec⟩

end Sys2Proof.Machine
end

section
/-! Proofs of the family 70_reset_and_hazards.md: INIT, the startup sequence (R163). -/

namespace Sys2Proof.Machine

theorem hostOp_init : HostOp 0xB (fun _ => .init) := by
  intro w hop
  simp [decode, decodeHost, hop]

/-! ## The answer of an operation is read by none after it (10_state.md R13) -/

/-- Line events fix the next state but for its answer, and do not depend on the answer before them. -/
theorem AppendedEvents.answer_unique {es : List LineEvent} {s t u : State} {v : Option Byte} (h : AppendedEvents es s t)
    (k : AppendedEvents es (s.answer v) u) (w : Option Byte) : u.answer w = t.answer w := by
  have htrace : u.lineTrace = t.lineTrace := k.trace.trans h.trace.symm
  exact State.eq_of_fields (k.buf.trans h.buf.symm) (k.lines.trans h.lines.symm) (k.params.trans h.params.symm)
    (List.reverse_injective htrace) rfl (k.pending.trans h.pending.symm) (k.draws.trans h.draws.symm)

theorem commands_answer (v w : Option Byte) (os : List Byte) (s : State) :
    (os.foldl (fun t o => t.writeCommand o) (s.answer v)).answer w = (os.foldl (fun t o => t.writeCommand o) s).answer w :=
  (commands_appended os s).answer_unique (commands_appended os (s.answer v)) w

theorem State.fillBuf_answer (v w : Option Byte) (value : Byte) (s : State) :
    ((s.answer v).fillBuf value).answer w = (s.fillBuf value).answer w := rfl

theorem State.flushBuf_answer (v w : Option Byte) (s : State) :
    (s.answer v).flushBuf.answer w = s.flushBuf.answer w :=
  (State.flushBuf_appended s).answer_unique (State.flushBuf_appended (s.answer v)) w

/-! ## The startup sequence -/

theorem runList_cons {i : Instr} {s t : State} (h : exec i s = .next t) (is : List Instr) :
    runList (i :: is) s = runList is t := by
  rw [runList, h]

/-- WRCMDs run one after another, at least one of them, send their frames and answer nothing. -/
theorem runList_wrcmds (o : Byte) (os : List Byte) (is : List Instr) (s : State) :
    runList ((o :: os).map .wrcmd ++ is) s =
      runList is (((o :: os).foldl (fun t o => t.writeCommand o) s).answer none) := by
  induction os generalizing o s with
  | nil => exact runList_cons (exec_wrcmd o s) is
  | cons p os ih =>
    rw [List.map_cons, List.cons_append, runList_cons (exec_wrcmd o s), ih, commands_answer]
    simp only [List.foldl_cons]

/-- The eight primitives of INIT, each run to completion, leave the state that INIT leaves (R163). -/
theorem runList_startup (s : State) :
    runList ((startupOpcodes s.params.opcodes).map .wrcmd ++ [.fill 0, .flush]) s = .next (s.startup.answer none) := by
  rw [startupOpcodes, runList_wrcmds, runList_cons (exec_fill ..), runList_cons (exec_flush _), State.fillBuf_answer,
    State.flushBuf_answer, runList, State.startup, startupOpcodes]

/-- Command frames leave BL as it was. -/
theorem put_cmdFrames_bl (os : List Byte) (ls : Lines) :
    (((os.map cmdFrame).flatMap frameEvents).foldl Lines.put ls).bl = ls.bl := by
  induction os generalizing ls with
  | nil => rfl
  | cons o os ih => rw [List.map_cons, List.flatMap_cons, List.foldl_append, put_cmdFrame, ih]

/-- The latches after INIT: those of the flush of a buffer of zeros, with BL as it was before the commands (R163). -/
theorem State.startup_lines (s : State) :
    s.startup.lines = { s.lines with cs := true, clk := true, data := false } := by
  obtain ⟨hdrove, -, -⟩ := s.startup_spec
  rw [hdrove.lines, startupFrames, ← flushFrames_fill_zero, List.flatMap_append, List.foldl_append, put_flushFrames,
    put_cmdFrames_bl, State.fillBuf_readByte?, State.readByte?_map_const]
  rfl

/-- The data frames of INIT, by the number of the address. -/
theorem startupFrames_eq (p : Params) :
    startupFrames p = (startupOpcodes p.opcodes).map cmdFrame ++
      (List.range bufSize).map fun a => dataFrame (addrField p.addrField (BitVec.ofNat 8 a)) 0 := by
  rw [startupFrames, bufAddresses, List.map_map]
  rfl

/-- Settles O47: what INIT drives and leaves in the buffer is `State.startup_spec`; its latches are `State.startup_lines`, its
frames `startupFrames_eq`, and the sequence of its primitives `runList_startup`. -/
theorem initRunsTheStartupSequence : Obligations.InitRunsTheStartupSequence := by
  refine ⟨hostOp_init, fun s => ?_⟩
  obtain ⟨hstartup, hdraws, hread⟩ := s.startup_spec
  have hdrove := hstartup.answer none
  refine ⟨s.startup.answer none, exec_init s, runList_startup s, ?buffer,
    (s.startup.answer_lines none).trans s.startup_lines,
    ⟨hdrove.params, hdrove.pending, (s.startup.answer_draws none).trans hdraws⟩,
    s.startup.answer_reply none, ?frames⟩
  case buffer =>
    intro x
    rw [State.answer_readByte?, hread, State.readByte?_map_const]
  case frames =>
    intro hquiescent
    rw [hdrove.frames hquiescent, startupFrames_eq, ← List.append_assoc]
    rfl

end Sys2Proof.Machine
end

section
/-! Proofs of the family other, the encodings: host-port words and frames read back (30_encoding.md R52 to R54, R60, R62). -/

namespace Sys2Proof.Machine

open Sys2Proof.Laws.TableRow (tableOp)

/-! ## The text of a DISPSTR word -/

theorem encode_dispstr (text : List Byte) : ∃ w, encode (.dispstr text) = .host w ∧ wordOp w = 0xC ∧
    (wordF w).toNat = min text.length 15 ∧ wordB2 w = text.getD 0 0 ∧ wordB1 w = text.getD 1 0 ∧
      wordB0 w = text.getD 2 0 := by
  refine ⟨_, rfl, wordOp_hostWord .., ?_, wordB2_hostWord .., wordB1_hostWord .., wordB0_hostWord ..⟩
  rw [wordF_hostWord, BitVec.toNat_ofNat]
  exact Nat.mod_eq_of_lt (by omega)

theorem wordText_length (w : HostWord) : (wordText w).length = (wordF w).toNat := by
  simp [wordText]; omega

/-- A word that carries a string's length and first characters has all of a string that fits: the rest of it is zeros
(R54; log entry 14). -/
theorem wordText_eq {w : HostWord} {text : List Byte} (hfits : textFitsWord text = true)
    (hlen : (wordF w).toNat = text.length) (h2 : wordB2 w = text.getD 0 0) (h1 : wordB1 w = text.getD 1 0)
    (h0 : wordB0 w = text.getD 2 0) : wordText w = text := by
  rw [wordText, hlen, h2, h1, h0]
  match text with
  | [] => rfl
  | [_] => rfl
  | [_, _] => rfl
  | a :: b :: c :: rest =>
    have hzero : rest = List.replicate rest.length 0 := by
      refine List.eq_replicate_of_mem fun x hx => ?_
      simp only [textFitsWord, Bool.and_eq_true, List.drop_succ_cons, List.drop_zero, List.all_eq_true] at hfits
      exact eq_of_beq (hfits.2 x hx)
    conv => rhs; rw [hzero]
    simp

theorem textFitsWord_of_length_le {text : List Byte} (h : text.length ≤ 3) : textFitsWord text = true := by
  rw [textFitsWord, List.drop_eq_nil_of_le h]
  simp; omega

theorem hostOp_dispstr : HostOp 0xC (fun w => .dispstr (wordText w)) := by
  intro w hop
  simp [decode, decodeHost, hop]

/-- Settles O3: each operation's word has the operation's `op` and operands in its fields; a string comes back by
`wordText_eq`, an integer by `wordInt_intWord`, and the two frames by `decodeFrame_cmdFrame` and `decodeFrame_dataFrame`. -/
theorem decodeOfEncode : Obligations.DecodeOfEncode := by
  intro i hwf
  cases i with
  | dispstr text =>
    obtain ⟨w, hw, hop, hlen, h2, h1, h0⟩ := encode_dispstr text
    have hle : text.length ≤ 15 := by
      simp only [WellFormed, textFitsWord, Bool.and_eq_true, decide_eq_true_eq] at hwf
      exact hwf.1
    have htext : wordText w = text := wordText_eq hwf (hlen.trans (by omega)) h2 h1 h0
    have hread : decode (.host w) = .ok (.dispstr (wordText w)) := hostOp_dispstr w hop
    rw [hw, hread, htext]
  | wraddr a n =>
    have hn : (n.zeroExtend 8).extractLsb' 0 4 = n := by
      apply BitVec.eq_of_getLsbD_eq
      intro k hk
      simp [hk]; omega
    simp [encode, decode, decodeHost, hn]
  | blset level => cases level <;> simp [encode, decode, decodeHost]
  | dispint n => simp [encode, decode, decodeHost, wordInt_intWord _ hwf]
  | disphex n => simp [encode, decode, decodeHost, wordInt_intWord _ hwf]
  | frameCmd o => exact decodeFrame_cmdFrame o
  | frameData f n => exact decodeFrame_dataFrame f n
  | _ => simp [encode, decode, decodeHost]

/-! ## What the decoders read -/

/-- A word is reserved, or is a well-formed operation of the row that its `op` names (R54, R60, R61 (e)). -/
theorem decodeHost_row (w : HostWord) :
    ((wordOp w = 0x0 ∨ wordOp w = 0xF) ∧ decodeHost w = .error (.reservedOp (wordOp w))) ∨
      ∃ i, decodeHost w = .ok i ∧ tableOp i = some (wordOp w) ∧ WellFormed i = true := by
  unfold decodeHost
  split
  case h_15 =>
    refine .inl ⟨?_, rfl⟩
    have hlt := (wordOp w).isLt
    simp only [imp_false] at *
    have hends : (wordOp w).toNat = 0 ∨ (wordOp w).toNat = 15 := by omega
    exact hends.imp (fun h => BitVec.eq_of_toNat_eq h) (fun h => BitVec.eq_of_toNat_eq h)
  all_goals
    rename_i hop
    refine .inr ⟨_, rfl, congrArg some (BitVec.eq_of_toNat_eq hop.symm), ?_⟩
  -- The rows 0xC to 0xE, of a string and two integers, carry operands to check; no other row does.
  case h_12 => exact textFitsWord_wordText w
  case h_13 => exact intFitsWord_wordInt w
  case h_14 => exact intFitsWord_wordInt w
  all_goals rfl

theorem tableOp_ne_reserved {i : Instr} {op : BitVec 4} (h : tableOp i = some op) : op ≠ 0x0 ∧ op ≠ 0xF := by
  cases i <;> cases h <;> decide

/-- A bit list is read as a frame exactly where it is one; what is read is a row with no word of its own (R62). -/
theorem decodeFrame_row (bits : List Bool) :
    (LegalFrame bits ∧ ((∃ o, decodeFrame bits = .ok (.frameCmd o)) ∨ ∃ f n, decodeFrame bits = .ok (.frameData f n))) ∨
      (¬ LegalFrame bits ∧ decodeFrame bits = .error (.notAFrame bits)) := by
  unfold decodeFrame LegalFrame
  split
  · rename_i h; exact .inl ⟨.inl h, .inl ⟨_, rfl⟩⟩
  · split
    · rename_i h; exact .inl ⟨.inr h, .inr ⟨_, _, rfl⟩⟩
    · rename_i hcmd hdata; exact .inr ⟨not_or.mpr ⟨hcmd, hdata⟩, rfl⟩

/-- Settles O4, by what each decoder can answer: `decodeHost_row` of a word, `decodeFrame_row` of a bit list. -/
theorem decodeIsTotalAndWellFormed : Obligations.DecodeIsTotalAndWellFormed := by
  refine ⟨?wellFormed, fun w => ?word, fun bits => ?frame⟩
  case wellFormed =>
    rintro (w | bits) i hdecode
    · rcases decodeHost_row w with ⟨-, herror⟩ | ⟨j, hj, -, hwf⟩
      · cases herror.symm.trans hdecode
      · cases hj.symm.trans hdecode; exact hwf
    · rcases decodeFrame_row bits with ⟨-, ⟨o, h⟩ | ⟨f, n, h⟩⟩ | ⟨-, herror⟩
      · cases h.symm.trans hdecode; rfl
      · cases h.symm.trans hdecode; rfl
      · cases herror.symm.trans hdecode
  case word =>
    rcases decodeHost_row w with ⟨hop, herror⟩ | ⟨j, hj, hop, -⟩
    · exact iff_of_false (fun ⟨i, hi⟩ => by cases herror.symm.trans hi) (fun h => hop.elim h.1 h.2)
    · exact iff_of_true ⟨j, hj⟩ (tableOp_ne_reserved hop)
  case frame =>
    rcases decodeFrame_row bits with ⟨hlegal, ⟨o, h⟩ | ⟨f, n, h⟩⟩ | ⟨hno, herror⟩
    · exact iff_of_true ⟨_, h⟩ hlegal
    · exact iff_of_true ⟨_, h⟩ hlegal
    · exact iff_of_false (fun ⟨i, hi⟩ => by cases herror.symm.trans hi) hno

/-! ## The word means what the operation means -/

/-- Strings of no character and of more than three are shown as three spaces (43_digit_composer.md R122). -/
theorem pad_of_blank (n : Nat) {text : List Byte} (h : text.length = 0 ∨ 3 < text.length) :
    pad n text = [space, space, space] := by
  unfold pad
  split
  · omega
  · omega
  · omega
  · rfl

/-- A render depends on the padded text alone, and on no more of it than there are digits (R123). -/
theorem exec_dispstr_congr {x y : List Byte} {s : State}
    (h : s.params.display.digits.slots.zip (pad s.params.display.digits.count x) =
      s.params.display.digits.slots.zip (pad s.params.display.digits.count y)) :
    exec (.dispstr x) s = exec (.dispstr y) s := by
  rw [exec_dispstr, exec_dispstr, State.displayString_eq, State.displayString_eq, litSegs, litSegs, h]

theorem exec_dispstr_of_pad_eq {x y : List Byte} {s : State}
    (h : pad s.params.display.digits.count x = pad s.params.display.digits.count y) :
    exec (.dispstr x) s = exec (.dispstr y) s := exec_dispstr_congr (by rw [h])

/-- Settles O5: what is well formed comes back (`decodeOfEncode`), and of what the port can be given only a string of more than
three characters is not; it decodes to another such string, and both are shown as three spaces (`pad_of_blank`). -/
theorem portWordKeepsTheMeaning : Obligations.PortWordKeepsTheMeaning := by
  intro i s hfits
  by_cases hwf : WellFormed i = true
  · exact ⟨i, decodeOfEncode i hwf, rfl⟩
  · cases i with
    | dispstr text =>
      have hlong : 3 < text.length := by
        by_contra hle
        exact hwf (textFitsWord_of_length_le (Nat.le_of_not_lt hle))
      obtain ⟨w, hw, hop, hlen, -⟩ := encode_dispstr text
      have hlong' : 3 < (wordText w).length := by rw [wordText_length, hlen]; omega
      refine ⟨.dispstr (wordText w), hw ▸ hostOp_dispstr w hop, exec_dispstr_of_pad_eq ?_⟩
      rw [pad_of_blank _ (.inr hlong), pad_of_blank _ (.inr hlong')]
    | dispint n => exact absurd hfits hwf
    | disphex n => exact absurd hfits hwf
    | _ => exact absurd rfl hwf

/-- Settles O2: the words are closed, and the decoder computes the row of each. -/
theorem specWordsDecode : Obligations.SpecWordsDecode := by
  unfold Obligations.SpecWordsDecode
  decide

/-- Settles O16: what the two operations send, `cmdFrame` and `dataFrame`, bit by bit (`cmdFrame_bits`, `dataFrame_bits`). -/
theorem wireFrameBits : Obligations.WireFrameBits :=
  ⟨fun o s => by rw [State.writeCommand, cmdFrame_bits], fun a n s => by rw [State.writeAddress, dataFrame_bits]⟩

/-! ## The address field (30_encoding.md R56) -/

theorem addrField_top6_toNat (a : Byte) : (addrField .top6 a).toNat = a.toNat % 64 := by
  simp [addrField, BitVec.extractLsb'_toNat, Nat.shiftRight_eq_div_pow, Nat.shiftLeft_eq]
  omega

theorem addrField_low6_toNat (a : Byte) : (addrField .low6 a).toNat = 4 * (a.toNat % 16) := by
  simp [addrField, BitVec.extractLsb'_toNat, Nat.shiftLeft_eq]
  omega

/-- Under TOP6 the 32 buffer addresses have 32 fields (R56, decision D1). -/
theorem addrField_top6_injective {a b : Byte} (ha : a.toNat < bufSize) (hb : b.toNat < bufSize)
    (h : addrField .top6 a = addrField .top6 b) : a = b := by
  have hmod := congrArg BitVec.toNat h
  rw [addrField_top6_toNat, addrField_top6_toNat, Nat.mod_eq_of_lt (by unfold bufSize at ha; omega),
    Nat.mod_eq_of_lt (by unfold bufSize at hb; omega)] at hmod
  exact BitVec.eq_of_toNat_eq hmod

/-- Settles O19, by the value of the field under each placement. -/
theorem addressFieldPlacement : Obligations.AddressFieldPlacement :=
  ⟨addrField_top6_toNat, fun _ _ => addrField_top6_injective, addrField_low6_toNat⟩

end Sys2Proof.Machine
end

section
/-! Proofs of the family other, the port, the step and its invariants (10_state.md R12, R13, R20, R24, R26;
30_encoding.md R61). -/

namespace Sys2Proof.Machine

open Sys2Proof.Laws.TableRow (tableOp)

/-! ## What the port does with each request -/

theorem step_idle {s : State} (h : s.pending = []) : step s = .next s := by
  rw [step, State.next, h]

theorem step_request {s : State} {r : Request} {rest : List Request} (h : s.pending = r :: rest) :
    step s = State.issue r { s with pending := rest } := by
  rw [step, State.next, h]

theorem State.issue_call (i : Instr) (s : State) : State.issue (.call i) s = exec i s := rfl

theorem State.issue_wire (bits : List Bool) (s : State) : State.issue (.packet (.wire bits)) s = .next (s.answer none) := rfl

theorem State.issue_reserved {w : HostWord} {e : DecodeError} (h : decodeHost w = .error e) (s : State) :
    State.issue (.packet (.host w)) s = .next (s.answer none) := by
  rw [State.issue, h]

theorem State.issue_word {w : HostWord} {i : Instr} (h : decodeHost w = .ok i) (s : State) :
    State.issue (.packet (.host w)) s = s.runDecoded i := by
  rw [State.issue, h]

/-- A word that means its operation: any, but for an integer operation where INT_W is not 16 (R54). -/
theorem State.runDecoded_defined {i : Instr} {s : State} (h : needsIntWord i = false ∨ s.params.intW = 16) :
    s.runDecoded i = exec i s := by
  rcases h with h | h <;> simp [State.runDecoded, h]

theorem State.runDecoded_undefined {i : Instr} {s : State} (hword : needsIntWord i = true) (hwidth : s.params.intW ≠ 16) :
    s.runDecoded i = .refused (.intWordUndefined s.params.intW) := by
  simp [State.runDecoded, hword, hwidth]

/-- The operations whose word depends on INT_W are those of the rows 0xD and 0xE (R54). -/
theorem tableOp_of_needsIntWord {i : Instr} {op : BitVec 4} (hword : needsIntWord i = true) (h : tableOp i = some op) :
    op = 0xD ∨ op = 0xE := by
  cases i with
  | dispint n => cases h; exact .inl rfl
  | disphex n => cases h; exact .inr rfl
  | _ => cases hword

theorem decodeHost_of_reserved {w : HostWord} (h : wordOp w = 0x0 ∨ wordOp w = 0xF) :
    decodeHost w = .error (.reservedOp (wordOp w)) := by
  rcases decodeHost_row w with ⟨-, herror⟩ | ⟨i, -, hop, -⟩
  · exact herror
  · obtain ⟨h0, hF⟩ := tableOp_ne_reserved hop
    exact absurd h (not_or.mpr ⟨h0, hF⟩)

/-- Settles O1: the three presentations, by what the port does with each. Frame bits that decode are one of the two frame rows,
whose meaning is the silence the port answers them with. -/
theorem stepRunsThePresentedOperation : Obligations.StepRunsThePresentedOperation := by
  refine ⟨fun s => step_idle, fun s i rest h => step_request h, fun s p i rest h hdecode hwf hword => ?_⟩
  rw [step_request h]
  cases p with
  | host w => exact (State.issue_word hdecode _).trans (State.runDecoded_defined hword)
  | wire bits =>
    rw [State.issue_wire]
    rcases decodeFrame_row bits with ⟨-, ⟨o, ho⟩ | ⟨f, n, hf⟩⟩ | ⟨-, herror⟩
    · cases ho.symm.trans hdecode; exact (exec_frameCmd ..).symm
    · cases hf.symm.trans hdecode; exact (exec_frameData ..).symm
    · cases herror.symm.trans hdecode

/-- Settles O6: a reserved word decodes to no operation, and the port answers nothing to it. -/
theorem reservedOpsAreIgnored : Obligations.ReservedOpsAreIgnored := by
  intro s w rest hpending hop
  refine ⟨({ s with pending := rest } : State).answer none, ?_, fun _ => rfl, ⟨rfl, rfl⟩, rfl, rfl, rfl, rfl⟩
  rw [step_request hpending, State.issue_reserved (decodeHost_of_reserved hop)]

/-- Settles O7: by the request at the head; every operation completes, so only a word can be refused, and only one of the rows
0xD and 0xE (`tableOp_of_needsIntWord`). -/
theorem stepStopsOnlyAtThePort : Obligations.StepStopsOnlyAtThePort := by
  intro s
  match hpending : s.pending with
  | [] => exact .inl ⟨s, step_idle hpending⟩
  | .call i :: rest =>
    rw [step_request hpending, State.issue_call]
    exact .inl (everyOperationCompletes i _)
  | .packet (.wire bits) :: rest => exact .inl ⟨_, step_request hpending⟩
  | .packet (.host w) :: rest =>
    rw [step_request hpending]
    rcases decodeHost_row w with ⟨-, herror⟩ | ⟨i, hi, hop, -⟩
    · exact .inl ⟨_, State.issue_reserved herror _⟩
    · rw [State.issue_word hi]
      by_cases hdefined : needsIntWord i = false ∨ s.params.intW = 16
      · obtain ⟨t, ht⟩ := everyOperationCompletes i { s with pending := rest }
        exact .inl ⟨t, (State.runDecoded_defined (s := { s with pending := rest }) hdefined).trans ht⟩
      · obtain ⟨hword, hwidth⟩ := not_or.mp hdefined
        have hword : needsIntWord i = true := eq_true_of_ne_false hword
        exact .inr ⟨w, rest, rfl, tableOp_of_needsIntWord hword hop, hwidth, State.runDecoded_undefined hword hwidth⟩

theorem exec_reply {i : Instr} {s t u : State} {v : Option Byte} (hexec : exec i s = .next (u.answer v))
    (h : exec i s = .next t) : t.reply = v := by
  cases hexec.symm.trans h
  rfl

/-- Settles O9: every operation but the two answers nothing, and PATTERN a value of 7 bits, widened. -/
theorem onlyReadsReturnValues : Obligations.OnlyReadsReturnValues := by
  intro i s t v hexec hreply
  cases i with
  | rdbyte a => exact .inl ⟨a, rfl⟩
  | pattern c =>
    cases (exec_reply (exec_pattern c s) hexec).symm.trans hreply
    refine .inr ⟨⟨c, rfl⟩, ?_⟩
    have hlt := (patternFor s.params.rom c).isLt
    rw [BitVec.zeroExtend_eq_setWidth, BitVec.toNat_setWidth]
    omega
  | _ => cases (exec_reply (v := none) rfl hexec).symm.trans hreply

/-- Settles O21: the frame rows and frame bits are answered nothing, and that is all. -/
theorem framesPresentedChangeNothing : Obligations.FramesPresentedChangeNothing := by
  intro s
  refine ⟨fun o => exec_frameCmd o s, fun f n => exec_frameData f n s, fun bits rest hpending => ?_⟩
  rw [step_request hpending, State.issue_wire]
  rfl

/-! ## Reset -/

/-- The laws of the constants hold of those the block is built with (43_digit_composer.md R131, 42_char_rom.md R111). -/
theorem lawfulParams_reset : LawfulParams State.reset.params :=
  ⟨rfl, le_rfl, patternFor_openRom_of_pinned (by decide) (by decide), patternFor_openRom_of_pinned (by decide) (by decide),
    patternFor_openRom_of_pinned (by decide) (by decide), patternFor_openRom_of_pinned (by decide) (by decide)⟩

theorem State.reset_frames : State.reset.frames = [] := rfl

/-- Settles O10: the levels, the empty traces and the parameters are those `State.reset` gives. -/
theorem resetLeavesTheLinesIdle : Obligations.ResetLeavesTheLinesIdle :=
  ⟨rfl, rfl, rfl, State.reset_frames, rfl, rfl, rfl, lawfulParams_reset⟩

/-- Settles O11: with no event the latches are those at reset, and there is no frame. -/
theorem resetIsQuiescent : Obligations.ResetIsQuiescent := by
  refine ⟨rfl, rfl, rfl, rfl, ?_⟩
  rw [State.reset_frames]
  exact List.forall_mem_nil _

/-! ## The invariants -/

/-- Settles O14: no step changes a parameter, so their laws stay as they are at reset. -/
theorem parameterLawsHoldThroughout : Obligations.ParameterLawsHoldThroughout :=
  ⟨lawfulParams_reset, fun s t hlaws hstep => by rwa [noOperationChangesAParameter s t hstep]⟩

/-- Settles O15: the line events of a step (`step_drove`). -/
theorem lineTraceOnlyGrows : Obligations.LineTraceOnlyGrows := by
  intro s t hstep
  obtain ⟨es, -, htrace, hlines, -⟩ := step_drove hstep
  exact ⟨es, htrace, hlines⟩

/-- The line events an operation can make keep the quiescent invariant, and add frames that operations send (R26). -/
theorem Legal.quiescent {es : List LineEvent} {s t : State} (hlegal : Legal s.params es) (hdrove : Drove es s t)
    (hq : Quiescent s) : Quiescent t ∧ ∃ fs, t.frames = s.frames ++ fs ∧ ∀ f ∈ fs, SentFrame s.params f := by
  cases hlegal with
  | frames fs hsent => exact ⟨hdrove.quiescent hq fun f hf => (hsent f hf).legal, fs, hdrove.frames hq, hsent⟩
  | backlight level =>
    obtain ⟨hqt, hframes⟩ := hq.backlight hdrove
    exact ⟨hqt, [], by simp [hframes], List.forall_mem_nil _⟩

theorem exec_quiescent {i : Instr} {s t : State} (hq : Quiescent s) (hexec : exec i s = .next t) :
    Quiescent t ∧ ∃ fs, t.frames = s.frames ++ fs ∧ ∀ f ∈ fs, SentFrame s.params f := by
  obtain ⟨es, hdrove, hlegal⟩ := exec_next hexec
  exact hlegal.quiescent hdrove hq

/-- A step keeps the quiescent invariant, and adds frames that operations send: the one fact behind the three statements on
the frames of a run. -/
theorem step_quiescent {s t : State} (hq : Quiescent s) (hstep : step s = .next t) :
    Quiescent t ∧ ∃ fs, t.frames = s.frames ++ fs ∧ ∀ f ∈ fs, SentFrame s.params f := by
  rcases step_next hstep with ⟨-, rfl⟩ | ⟨r, rest, -, ⟨i, hi⟩ | rfl⟩
  · exact ⟨hq, [], by simp, List.forall_mem_nil _⟩
  · have hpop : Quiescent { s with pending := rest } := hq
    exact exec_quiescent (s := { s with pending := rest }) hpop hi
  · exact ⟨hq, [], (List.append_nil _).symm, List.forall_mem_nil _⟩

/-- Settles O12, by `step_quiescent`. -/
theorem stepKeepsQuiescence : Obligations.StepKeepsQuiescence := fun _ _ hq hstep => (step_quiescent hq hstep).1

/-- Settles O51: at reset there is no frame, and a step adds only frames that operations send (`step_quiescent`), with the
parameters as they were. -/
theorem everyFrameIsOneAnOperationSends : Obligations.EveryFrameIsOneAnOperationSends := by
  refine ⟨?reset, fun s t hq hsent hstep f hf => ?step⟩
  case reset =>
    rw [State.reset_frames]
    exact List.forall_mem_nil _
  case step =>
    obtain ⟨-, fs, hframes, hnew⟩ := step_quiescent hq hstep
    rw [noOperationChangesAParameter s t hstep]
    rw [hframes] at hf
    exact (List.mem_append.mp hf).elim (hsent f) (hnew f)

theorem cmdFrame_ne_dataFrame (o : Byte) (f : AddrBits) (n : Nibble) : cmdFrame o ≠ dataFrame f n := by
  intro h
  have hlen : 11 = 13 := congrArg List.length h
  omega

/-- A data frame determines its field: it is read back (R53). -/
theorem dataFrame_field_injective {f g : AddrBits} {m n : Nibble} (h : dataFrame f m = dataFrame g n) : f = g := by
  have hread := congrArg decodeFrame h
  rw [decodeFrame_dataFrame, decodeFrame_dataFrame] at hread
  cases hread
  rfl

/-- A data frame that an operation sends has the ADDR_FIELD of an address (R73). -/
theorem SentFrame.field {p : Params} {f : AddrBits} {n : Nibble} (h : SentFrame p (dataFrame f n)) :
    ∃ a, f = addrField p.addrField a := by
  rcases h with ⟨o, ho⟩ | ⟨a, m, ha⟩
  · exact absurd ho.symm (cmdFrame_ne_dataFrame o f n)
  · exact ⟨a, dataFrame_field_injective ha⟩

/-- Settles O52: a frame the step adds has the field of an address, under LOW6 four times something (`addrField_low6_toNat`). -/
theorem low6FieldsAreMultiplesOfFour : Obligations.Low6FieldsAreMultiplesOfFour := by
  intro s t hq hlow hold hstep f n hmem
  obtain ⟨-, fs, hframes, hnew⟩ := step_quiescent hq hstep
  rw [hframes] at hmem
  rcases List.mem_append.mp hmem with h | h
  · exact hold f n h
  · obtain ⟨a, rfl⟩ := (hnew _ h).field
    rw [hlow, addrField_low6_toNat]
    exact Nat.mul_mod_right 4 _

end Sys2Proof.Machine
end

section
/-! Proofs of the family other, the bus (40_bus_encoder.md R70 to R76, 41_segment_buffer.md R95) and the line trace up to
stuttering (10_state.md R20, R21). -/

namespace Sys2Proof.Machine

theorem hostOp_wrcmd : HostOp 0x1 (fun w => .wrcmd (wordB0 w)) := by
  intro w hop
  simp [decode, decodeHost, hop]

theorem hostOp_wraddr : HostOp 0x2 (fun w => .wraddr (wordB1 w) (wordNibble w)) := by
  intro w hop
  simp [decode, decodeHost, hop]

theorem hostOp_flush : HostOp 0x8 (fun _ => .flush) := by
  intro w hop
  simp [decode, decodeHost, hop]

theorem hostOp_blset : HostOp 0xA (fun w => .blset (w.getLsbD 0)) := by
  intro w hop
  simp [decode, decodeHost, wordLevel, hop]

/-! ## WRCMD, WRADDR and BLSET -/

theorem Drove.one_frame {f : List Bool} {s t : State} (h : Drove (frameEvents f) s t) (hq : Quiescent s) :
    t.frames = s.frames ++ [f] := by
  refine Drove.frames ?_ hq
  rwa [List.flatMap_singleton]

/-- An operation that sends one frame and answers nothing, its latches as the frame leaves them. -/
theorem AppendedEvents.sends {i : Instr} {f : List Bool} {b : Bool} {s u : State}
    (hsent : AppendedEvents (frameEvents f) s u) (hexec : exec i s = .next (u.answer none))
    (hput : (frameEvents f).foldl Lines.put s.lines = ⟨true, true, b, s.lines.bl⟩) :
    ∃ t, exec i s = .next t ∧ t.lineTrace = s.lineTrace ++ frameEvents f ∧
      t.lines = { s.lines with cs := true, clk := true, data := b } ∧
      (Quiescent s → t.frames = s.frames ++ [f]) ∧ SameBuf s t ∧ SameRest s t ∧ t.reply = none :=
  have h := hsent.answer none
  ⟨_, hexec, h.trace, h.lines.trans hput, h.drove.one_frame, h.sameBuf, h.sameRest, rfl⟩

/-- Settles O17: the events of WRCMD are those of its frame (`State.writeCommand_appended`). -/
theorem wrcmdSendsOneCommandFrame : Obligations.WrcmdSendsOneCommandFrame :=
  ⟨hostOp_wrcmd, fun o s => (State.writeCommand_appended o s).sends (exec_wrcmd o s) (put_cmdFrame o _)⟩

/-- Settles O18: the events of WRADDR are those of its frame, whatever the address (`State.writeAddress_appended`). -/
theorem wraddrSendsOneDataFrame : Obligations.WraddrSendsOneDataFrame :=
  ⟨hostOp_wraddr, fun a n s => (State.writeAddress_appended a n s).sends (exec_wraddr a n s) (put_dataFrame _ n _)⟩

/-- The observer does not see the backlight, from any state (10_state.md R21). -/
theorem Drove.backlight_frames {p : Params} {level : Bool} {s t : State} (h : Drove (blEvents p level) s t) :
    t.frames = s.frames := by
  rw [State.frames, h.trace, observe, List.foldl_append, blEvents]
  split <;> rfl

/-- Settles O20: the events of BLSET are `blEvents`, one where the line exists and none where it does not. -/
theorem blsetDrivesTheBacklight : Obligations.BlsetDrivesTheBacklight := by
  refine ⟨hostOp_blset, fun level s => ?_⟩
  have h := (State.setBacklight_appended level s).answer none
  refine ⟨_, exec_blset level s, fun hline => ?present, fun hline => ?absent, h.drove.backlight_frames, h.sameBuf,
    h.sameRest, rfl⟩
  case present =>
    have hevents : blEvents s.params level = [⟨.bl, level⟩] := if_pos hline
    rw [hevents] at h
    exact ⟨h.trace, h.lines⟩
  case absent =>
    have hevents : blEvents s.params level = [] := by simp [blEvents, hline]
    rw [hevents] at h
    exact ⟨h.lines, by rw [h.trace, List.append_nil]⟩

/-! ## The number of events (40_bus_encoder.md R76) -/

theorem frameEvents_length (bits : List Bool) : (frameEvents bits).length = 3 * bits.length + 2 := by
  have hcycles : (bits.flatMap bitEvents).length = 3 * bits.length := by
    induction bits with
    | nil => rfl
    | cons b bits ih => rw [List.flatMap_cons, List.length_append, ih, List.length_cons, bitEvents]; simp; omega
  rw [frameEvents, List.length_cons, List.length_append, hcycles, List.length_singleton]

theorem frameEvents_cmdFrame_length (o : Byte) : (frameEvents (cmdFrame o)).length = 35 := frameEvents_length _

theorem frameEvents_dataFrame_length (f : AddrBits) (n : Nibble) : (frameEvents (dataFrame f n)).length = 41 :=
  frameEvents_length _

theorem flatMap_frameEvents_length {α : Type} {k : Nat} (xs : List α) (frame : α → List Bool)
    (h : ∀ x, (frameEvents (frame x)).length = k) : ((xs.map frame).flatMap frameEvents).length = xs.length * k := by
  rw [List.flatMap_map, List.length_flatMap, List.map_congr_left fun x _ => h x, List.map_const', List.sum_replicate,
    smul_eq_mul]

theorem flushFrames_events (s : State) : ((flushFrames s bufAddresses).flatMap frameEvents).length = 1312 :=
  flatMap_frameEvents_length bufAddresses _ fun _ => frameEvents_dataFrame_length _ _

theorem startupFrames_events (p : Params) : ((startupFrames p).flatMap frameEvents).length = 1522 := by
  rw [startupFrames, List.flatMap_append, List.length_append,
    flatMap_frameEvents_length _ _ frameEvents_cmdFrame_length,
    flatMap_frameEvents_length _ _ fun _ => frameEvents_dataFrame_length _ _]
  rfl

theorem Drove.trace_length {i : Instr} {es : List LineEvent} {s t u : State} (h : Drove es s u)
    (hexec : exec i s = .next (u.answer none)) (ht : exec i s = .next t) :
    t.lineTrace.length = s.lineTrace.length + es.length := by
  cases hexec.symm.trans ht
  rw [State.answer_lineTrace, h.trace, List.length_append]

/-- Settles O22: a frame of n bits takes 3 n + 2 events, and the four operations append the events of their frames. -/
theorem canonicalEventCounts : Obligations.CanonicalEventCounts := by
  refine ⟨fun o s t ht => ?wrcmd, fun a n s t ht => ?wraddr, fun s t ht => ?flush, fun s t ht => ?init⟩
  case wrcmd =>
    rw [(State.writeCommand_appended o s).drove.trace_length (exec_wrcmd o s) ht, frameEvents_cmdFrame_length]
  case wraddr =>
    rw [(State.writeAddress_appended a n s).drove.trace_length (exec_wraddr a n s) ht, frameEvents_dataFrame_length]
  case flush => rw [(State.flushBuf_appended s).drove.trace_length (exec_flush s) ht, flushFrames_events]
  case init => rw [s.startup_spec.1.trace_length (exec_init s) ht, startupFrames_events]

/-! ## Stuttering (10_state.md R20, R21) -/

/-- The observer tracks these latches. -/
def Observer.Tracks (o : Observer) (ls : Lines) : Prop := o.cs = ls.cs ∧ o.clk = ls.clk ∧ o.data = ls.data

theorem Observer.Tracks.see {o : Observer} {ls : Lines} (h : o.Tracks ls) (e : LineEvent) : (o.see e).Tracks (ls.put e) :=
  see_levels [e] o ls h

/-- An event that sets a line to the level it has is not seen. -/
theorem Observer.Tracks.see_stutter {o : Observer} {ls : Lines} {e : LineEvent} (h : o.Tracks ls)
    (he : ls.get e.line = e.level) : o.see e = o := by
  obtain ⟨cs, clk, data, bits, frames⟩ := o
  obtain ⟨line, level⟩ := e
  obtain ⟨rfl, rfl, rfl⟩ := h
  cases line <;> cases he <;> simp [Observer.see]

/-- The observer ends alike on a trace and on the trace without its stuttering events. -/
theorem see_destutter (t : List LineEvent) {o : Observer} {ls : Lines} (h : o.Tracks ls) :
    (destutter ls t).foldl Observer.see o = t.foldl Observer.see o := by
  induction t generalizing o ls with
  | nil => rfl
  | cons e t ih =>
    rw [destutter, List.foldl_cons]
    split
    · rename_i he; rw [ih h, h.see_stutter he]
    · rw [List.foldl_cons, ih (h.see e)]

/-- Settles O23: the frames of a trace are those of the trace without its stuttering events (`see_destutter`). -/
theorem equivalentTracesDecodeAlike : Obligations.EquivalentTracesDecodeAlike := by
  intro t u htu
  have hreset : Observer.atReset.Tracks .atReset := ⟨rfl, rfl, rfl⟩
  rw [observe, observe, ← see_destutter t hreset, ← see_destutter u hreset, htu]

theorem destutter_repeat (t u : List LineEvent) (e : LineEvent) (ls : Lines) :
    destutter ls (t ++ e :: e :: u) = destutter ls (t ++ e :: u) := by
  induction t generalizing ls with
  | nil =>
    by_cases he : ls.get e.line = e.level
    · simp [destutter, he]
    · simp [destutter, he, Lines.get_put_same]
  | cons x t ih => simp only [List.cons_append, destutter, ih]

/-- Settles O24: the second of two equal events always stutters, wherever they stand (`destutter_repeat`). -/
theorem repeatedWritesAreEquivalent : Obligations.RepeatedWritesAreEquivalent := fun t u e => destutter_repeat t u e _

/-! ## What drives no line -/

theorem State.fetchByte_sameLines (a : Byte) (s : State) : SameLines s (s.fetchByte a).2 := by
  rcases s.fetchByte_spec a with ⟨v, -, h⟩ | ⟨-, h⟩ <;> rw [h] <;> exact ⟨rfl, rfl⟩

/-- Settles O25: the buffer operations and the renders change the buffer only (`BufOnly`), the two reads the answer and the
draws, the two frame rows the answer. -/
theorem onlyBusOperationsDriveLines : Obligations.OnlyBusOperationsDriveLines := by
  intro i s t hquiet hexec
  cases i with
  | setbit g => cases hexec; exact (State.setBit_bufOnly g s).sameLines
  | clrbit g => cases hexec; exact (State.clrBit_bufOnly g s).sameLines
  | fill v => cases hexec; exact (State.fillBuf_bufOnly v s).sameLines
  | rdbyte a => cases hexec; exact s.fetchByte_sameLines a
  | wrbyte a v => cases hexec; exact (State.writeByte_bufOnly a v s).sameLines
  | pattern c => cases hexec; exact ⟨rfl, rfl⟩
  | dispstr x => cases hexec; exact (State.displayString_bufOnly _ s).sameLines
  | dispint n => cases hexec; exact (State.displayString_bufOnly _ s).sameLines
  | disphex n => cases hexec; exact (State.displayString_bufOnly _ s).sameLines
  | frameCmd o => cases hexec; exact ⟨rfl, rfl⟩
  | frameData f n => cases hexec; exact ⟨rfl, rfl⟩
  | _ => cases hquiet

/-! ## What moves the backlight -/

theorem put_frameEvents_bl (bits : List Bool) (ls : Lines) : ((frameEvents bits).foldl Lines.put ls).bl = ls.bl := by
  cases bits with
  | nil => rfl
  | cons b bits => rw [put_frame]

/-- No frame moves the backlight. -/
theorem put_frames_bl (fs : List (List Bool)) (ls : Lines) : ((fs.flatMap frameEvents).foldl Lines.put ls).bl = ls.bl := by
  induction fs generalizing ls with
  | nil => rfl
  | cons f fs ih => rw [List.flatMap_cons, List.foldl_append, ih, put_frameEvents_bl]

theorem Drove.keeps_bl {i : Instr} {es : List LineEvent} {s t u : State} (h : Drove es s u)
    (hes : ∀ ls : Lines, (es.foldl Lines.put ls).bl = ls.bl) (hexec : exec i s = .next (u.answer none))
    (ht : exec i s = .next t) : t.lines.bl = s.lines.bl := by
  cases hexec.symm.trans ht
  rw [State.answer_lines, h.lines, hes]

/-- Settles O26: an operation either drives no line (`onlyBusOperationsDriveLines`), or is one of the four that send frames,
which leave BL alone (`put_frames_bl`). -/
theorem onlyBlsetMovesTheBacklight : Obligations.OnlyBlsetMovesTheBacklight := by
  intro i s t hblset ht
  by_cases hquiet : drivesLines i = false
  · rw [(onlyBusOperationsDriveLines i s t hquiet ht).1]
  · cases i with
    | wrcmd o => exact (s.writeCommand_appended o).drove.keeps_bl (put_frameEvents_bl _) (exec_wrcmd o s) ht
    | wraddr a n => exact (s.writeAddress_appended a n).drove.keeps_bl (put_frameEvents_bl _) (exec_wraddr a n s) ht
    | flush => exact s.flushBuf_appended.drove.keeps_bl (put_frames_bl _) (exec_flush s) ht
    | init => exact s.startup_spec.1.keeps_bl (put_frames_bl _) (exec_init s) ht
    | blset level => exact absurd rfl (hblset level)
    | _ => exact absurd rfl hquiet

/-! ## FLUSH as direct writes (41_segment_buffer.md R95) -/

/-- The direct write of the top nibble that `BUF[a]` has. -/
def topNibbleWrite (s : State) (a : Byte) : Instr := .wraddr a (topNibble ((s.readByte? a).getD 0))

theorem SameBuf.topNibbleWrite_eq {s t : State} (h : SameBuf s t) : topNibbleWrite t = topNibbleWrite s := by
  funext a
  rw [topNibbleWrite, h a, topNibbleWrite]

theorem State.exec_topNibbleWrite {a : Byte} (h : a.toNat < bufSize) (s : State) :
    exec (topNibbleWrite s a) s = .next ((s.flushByte a).answer none) := by
  obtain ⟨v, hv⟩ := s.readByte?_of_lt h
  rw [topNibbleWrite, exec_wraddr, State.flushByte, hv, Option.getD_some]

/-- Flushing some addresses, at least one, is writing their top nibbles directly, one after another. -/
theorem runList_topNibbleWrites (a : Byte) (as : List Byte) (h : ∀ x ∈ a :: as, x.toNat < bufSize) (s : State) :
    runList ((a :: as).map (topNibbleWrite s)) s = .next (((a :: as).foldl State.flushByte s).answer none) := by
  induction as generalizing a s with
  | nil => exact runList_cons (s.exec_topNibbleWrite (h a (by simp))) []
  | cons b as ih =>
    obtain ⟨ha, has⟩ := List.forall_mem_cons.mp h
    have hsent := (s.flushByte_appended ha).answer none
    rw [List.map_cons, runList_cons (s.exec_topNibbleWrite ha), ← hsent.sameBuf.topNibbleWrite_eq, ih b has]
    exact congrArg _ ((State.flushList_appended _ has (s.flushByte a)).answer_unique
      (State.flushList_appended _ has ((s.flushByte a).answer none)) none)

theorem runList_flush (s : State) :
    runList ((List.range bufSize).map fun a => topNibbleWrite s (BitVec.ofNat 8 a)) s = .next (s.flushBuf.answer none) :=
  runList_topNibbleWrites 0 bufAddresses.tail (fun _ hx => mem_bufAddresses.mp hx) s

/-- Settles O32: a flush is the direct writes (`runList_flush`), its events are those of `flushFrames`, and the latches follow
the last of them (`put_flushFrames`). -/
theorem flushSendsEveryTopNibble : Obligations.FlushSendsEveryTopNibble := by
  refine ⟨hostOp_flush, fun s => ?_⟩
  have h := s.flushBuf_appended.answer none
  refine ⟨_, exec_flush s, runList_flush s, fun hq => ?frames, fun v hv => ?latches, h.sameBuf, h.sameRest, rfl⟩
  case frames =>
    rw [h.drove.frames hq, flushFrames, bufAddresses, List.map_map]
    rfl
  case latches =>
    rw [h.lines, put_flushFrames, hv]
    simp [topNibble]

end Sys2Proof.Machine
end

section
/-! Proofs of the family other, the buffer (41_segment_buffer.md R90 to R97, 10_state.md R11, 30_encoding.md R57). -/

namespace Sys2Proof.Machine

/-! ## RDBYTE -/

theorem hostOp_rdbyte : HostOp 0x6 (fun w => .rdbyte (wordB1 w)) := by
  intro w hop
  simp [decode, decodeHost, hop]

theorem exec_rdbyte_of_read {a v : Byte} {s : State} (h : s.readByte? a = some v) :
    exec (.rdbyte a) s = .next (s.answer (some v)) := by
  rw [exec_rdbyte, State.fetchByte, h]

theorem exec_rdbyte_of_out_of_range {a : Byte} (h : bufSize ≤ a.toNat) (s : State) :
    exec (.rdbyte a) s = .next (s.draw.2.answer (some s.draw.1)) := by
  rw [exec_rdbyte, State.fetchByte, (s.readByte?_eq_none a).mpr h]

/-- Settles O31, by the two cases of the bounds check: the byte read, or a draw. -/
theorem rdbyteReturnsTheByte : Obligations.RdbyteReturnsTheByte := by
  refine ⟨hostOp_rdbyte, fun a s => ?_⟩
  by_cases hlt : a.toNat < bufSize
  · obtain ⟨v, hv⟩ := s.readByte?_of_lt hlt
    exact ⟨_, v, exec_rdbyte_of_read hv, rfl, fun _ => ⟨hv, rfl⟩, fun hle => absurd hlt (Nat.not_lt.mpr hle),
      fun _ => rfl, ⟨rfl, rfl⟩, rfl, rfl⟩
  · exact ⟨_, _, exec_rdbyte_of_out_of_range (Nat.le_of_not_lt hlt) s, rfl, fun h => absurd h hlt, fun _ => ⟨rfl, rfl⟩,
      fun _ => rfl, ⟨rfl, rfl⟩, rfl, rfl⟩

/-! ## Addresses out of range (R96) -/

section
variable {a : Byte} (h : bufSize ≤ a.toNat) (m : Byte) (s : State)
include h

theorem State.setBit_of_out_of_range : s.setBit ⟨a, m⟩ = s := by
  rw [State.setBit, (s.readByte?_eq_none a).mpr h]

theorem State.clrBit_of_out_of_range : s.clrBit ⟨a, m⟩ = s := by
  rw [State.clrBit, (s.readByte?_eq_none a).mpr h]

theorem State.writeByte_of_out_of_range : s.writeByte a m = s := dif_neg (Nat.not_lt.mpr h)

end

/-- Settles O33: out of range the three writes are the identity, and RDBYTE takes a draw. -/
theorem outOfRangeAddressesAreIgnored : Obligations.OutOfRangeAddressesAreIgnored := by
  intro a m s h
  refine ⟨?_, ?_, ?_, _, exec_rdbyte_of_out_of_range h s, fun _ => rfl, rfl, rfl⟩
  · rw [exec_setbit, State.setBit_of_out_of_range h]; rfl
  · rw [exec_clrbit, State.clrBit_of_out_of_range h]; rfl
  · rw [exec_wrbyte, State.writeByte_of_out_of_range h]; rfl

/-! ## What is read back (R98, R99) -/

theorem runList_then_rdbyte {i : Instr} {s t : State} {a v : Byte} (hexec : exec i s = .next t)
    (hread : t.readByte? a = some v) : runList [i, .rdbyte a] s = .next (t.answer (some v)) := by
  rw [runList_cons hexec, runList_cons (exec_rdbyte_of_read hread), runList]

/-- Settles O34: the read rule of each operation at its own address, and RDBYTE after it. -/
theorem readBackLaws : Obligations.ReadBackLaws := by
  intro a s hlt
  obtain ⟨old, hold⟩ := s.readByte?_of_lt hlt
  refine ⟨fun m => ?set, fun m => ?clear, fun v => ?fill, fun v => ?store, ?flush⟩
  case set =>
    refine ⟨_, old ||| m, runList_then_rdbyte (exec_setbit ⟨a, m⟩ s) ?_, rfl, ?_⟩
    · rw [State.answer_readByte?, State.setBit_readByte?, if_pos rfl, hold, Option.map_some]
    · ext k hk; simpa using Or.inr
  case clear =>
    refine ⟨_, old &&& ~~~m, runList_then_rdbyte (exec_clrbit ⟨a, m⟩ s) ?_, rfl, ?_⟩
    · rw [State.answer_readByte?, State.clrBit_readByte?, if_pos rfl, hold, Option.map_some]
    · ext k hk; simp
  case fill =>
    refine ⟨_, runList_then_rdbyte (exec_fill v s) ?_, rfl⟩
    rw [State.answer_readByte?, State.fillBuf_readByte?, hold, Option.map_some]
  case store =>
    refine ⟨_, runList_then_rdbyte (exec_wrbyte a v s) ?_, rfl⟩
    rw [State.answer_readByte?, State.writeByte_readByte?, if_pos rfl, hold, Option.map_some]
  case flush =>
    refine ⟨_, _, old, runList_cons (exec_rdbyte_of_read hold) [], runList_then_rdbyte (exec_flush s) ?_, rfl, rfl⟩
    rw [State.answer_readByte?, s.flushBuf_appended.sameBuf, hold]

/-! ## What leaves the buffer alone -/

theorem State.fetchByte_sameBuf (a : Byte) (s : State) : SameBuf s (s.fetchByte a).2 := by
  rcases s.fetchByte_spec a with ⟨v, -, h⟩ | ⟨-, h⟩ <;> rw [h] <;> exact fun _ => rfl

/-- Settles O36: the bus operations append line events only (`AppendedEvents`), the two reads and the two frame rows change no
byte. -/
theorem busOperationsLeaveTheBuffer : Obligations.BusOperationsLeaveTheBuffer := by
  intro i s t hleaves hexec
  cases i with
  | wrcmd o => cases hexec; exact (s.writeCommand_appended o).sameBuf
  | wraddr a n => cases hexec; exact (s.writeAddress_appended a n).sameBuf
  | flush => exact Host.Outcome.next.inj ((exec_flush s).symm.trans hexec) ▸ (s.flushBuf_appended.answer none).sameBuf
  | pattern c => cases hexec; exact fun _ => rfl
  | blset l => cases hexec; exact (s.setBacklight_appended l).sameBuf
  | rdbyte a => cases hexec; exact s.fetchByte_sameBuf a
  | frameCmd o => cases hexec; exact fun _ => rfl
  | frameData f n => cases hexec; exact fun _ => rfl
  | _ => cases hleaves

/-! ## Every buffer write and every render clears some bits of each byte and then sets some -/

/-- `MasksBytes clear set s t`: `t` is `s` after the bits `clear x` of the byte at each address `x` are cleared and the bits
`set x` of it are set. -/
structure MasksBytes (clear set : Byte → Byte) (s t : State) : Prop where
  bufOnly : BufOnly s t
  read : ∀ x, t.readByte? x = (s.readByte? x).map fun v => (v &&& ~~~clear x) ||| set x

/-- `BitVec.and_allOnes` for a byte, with the value of the ones written out as `simp` writes it. -/
@[simp] theorem byte_and_ones (v : Byte) : v &&& 255#8 = v := BitVec.and_allOnes

theorem maskAt_singleton (g : Seg) (x : Byte) : maskAt [g] x = if x = g.address then g.mask else 0 := by
  simp [maskAt]

theorem State.setBit_masksBytes (g : Seg) (s : State) : MasksBytes (fun _ => 0) (maskAt [g]) s (s.setBit g) := by
  refine ⟨s.setBit_bufOnly g, fun x => (foldl_setBit_readByte? [g] s x).trans ?_⟩
  simp

theorem State.clrBit_masksBytes (g : Seg) (s : State) : MasksBytes (maskAt [g]) (fun _ => 0) s (s.clrBit g) := by
  refine ⟨s.clrBit_bufOnly g, fun x => (foldl_clrBit_readByte? [g] s x).trans ?_⟩
  simp

theorem State.fillBuf_masksBytes (v : Byte) (s : State) : MasksBytes (fun _ => .allOnes 8) (fun _ => v) s (s.fillBuf v) := by
  refine ⟨s.fillBuf_bufOnly v, fun x => (State.fillBuf_readByte? v s x).trans ?_⟩
  simp

theorem State.writeByte_masksBytes (a v : Byte) (s : State) :
    MasksBytes (maskAt [⟨a, .allOnes 8⟩]) (maskAt [⟨a, v⟩]) s (s.writeByte a v) := by
  refine ⟨s.writeByte_bufOnly a v, fun x => ?_⟩
  rw [State.writeByte_readByte?, maskAt_singleton, maskAt_singleton]
  split <;> simp

theorem State.displayString_masksBytes (text : List Byte) (s : State) :
    MasksBytes (maskAt (boundSegs s.params)) (maskAt (litSegs s.params (pad s.params.display.digits.count text))) s
      (s.displayString text) :=
  ⟨s.displayString_bufOnly text, s.displayString_readByte? text⟩

/-- Under the constants `p` the operation masks every byte in one way, whatever the state, and answers nothing. -/
def ActsByMasks (p : Params) (i : Instr) : Prop :=
  ∃ clear set, ∀ s : State, s.params = p → ∃ t, exec i s = .next (t.answer none) ∧ MasksBytes clear set s t

section
variable (p : Params)

theorem setbit_actsByMasks (g : Seg) : ActsByMasks p (.setbit g) :=
  ⟨_, _, fun s _ => ⟨_, exec_setbit g s, s.setBit_masksBytes g⟩⟩

theorem clrbit_actsByMasks (g : Seg) : ActsByMasks p (.clrbit g) :=
  ⟨_, _, fun s _ => ⟨_, exec_clrbit g s, s.clrBit_masksBytes g⟩⟩

theorem fill_actsByMasks (v : Byte) : ActsByMasks p (.fill v) :=
  ⟨_, _, fun s _ => ⟨_, exec_fill v s, s.fillBuf_masksBytes v⟩⟩

theorem wrbyte_actsByMasks (a v : Byte) : ActsByMasks p (.wrbyte a v) :=
  ⟨_, _, fun s _ => ⟨_, exec_wrbyte a v s, s.writeByte_masksBytes a v⟩⟩

theorem render_actsByMasks {i : Instr} (text : List Byte)
    (h : ∀ s : State, s.params = p → exec i s = .next ((s.displayString text).answer none)) : ActsByMasks p i :=
  ⟨_, _, fun s hs => ⟨_, h s hs, hs ▸ s.displayString_masksBytes text⟩⟩

theorem dispstr_actsByMasks (x : List Byte) : ActsByMasks p (.dispstr x) :=
  render_actsByMasks p x fun s _ => exec_dispstr x s

theorem dispint_actsByMasks (n : Int) : ActsByMasks p (.dispint n) :=
  render_actsByMasks p (decText (intOperand p.intW n)) fun s hs => by rw [exec_dispint, hs]

theorem disphex_actsByMasks (n : Int) : ActsByMasks p (.disphex n) :=
  render_actsByMasks p (hexText p.intW (intOperand p.intW n)) fun s hs => by rw [exec_disphex, hs]

end

/-- Masking once more changes nothing. -/
theorem mask_idempotent (v clear set : Byte) :
    ((v &&& ~~~clear ||| set) &&& ~~~clear) ||| set = v &&& ~~~clear ||| set := by
  have hbits : ∀ a b c : Bool, ((a && !b || c) && !b || c) = (a && !b || c) := by decide
  ext k hk
  simp only [BitVec.getElem_or, BitVec.getElem_and, BitVec.getElem_not, hbits]

theorem ActsByMasks.idempotent {i : Instr} {s t : State} (h : ActsByMasks s.params i) (hexec : exec i s = .next t) :
    exec i t = .next t := by
  obtain ⟨clear, set, hmasks⟩ := h
  obtain ⟨u, hu, hsu⟩ := hmasks s rfl
  cases hu.symm.trans hexec
  obtain ⟨v, hv, huv⟩ := hmasks (u.answer none) hsu.bufOnly.params
  have hsame : SameBuf (u.answer none) v := by
    intro x
    rw [huv.read, State.answer_readByte?, hsu.read, Option.map_map]
    exact congrArg (fun f => Option.map f _) (funext fun b => mask_idempotent b _ _)
  rw [hv, huv.bufOnly.eq_of_sameBuf hsame]
  rfl

/-- Settles O35: each of the seven operations masks every byte, and masking is idempotent (`ActsByMasks.idempotent`). -/
theorem bufferWritesAreIdempotent : Obligations.BufferWritesAreIdempotent := by
  intro i s t hi hexec
  refine ActsByMasks.idempotent ?_ hexec
  rcases hi with ⟨g, rfl | rfl⟩ | ⟨v, rfl⟩ | ⟨a, v, rfl⟩ | ⟨x, rfl⟩ | ⟨n, rfl | rfl⟩
  · exact setbit_actsByMasks _ g
  · exact clrbit_actsByMasks _ g
  · exact fill_actsByMasks _ v
  · exact wrbyte_actsByMasks _ a v
  · exact dispstr_actsByMasks _ x
  · exact dispint_actsByMasks _ n
  · exact disphex_actsByMasks _ n

end Sys2Proof.Machine
end

section
/-! Proofs of the family other: no bottom nibble reaches a line (30_encoding.md R57, 70_reset_and_hazards.md R175). -/

namespace Sys2Proof.Machine

/-- Both states step alike: what the first answers, the second answers too, but for bottom nibbles and the answer. -/
def OutcomesAgree (o o' : Host.Outcome State Fault Refusal) : Prop :=
  ∀ t, o = .next t → ∃ v, o' = .next v ∧ TopAgree t v

theorem TopAgree.outcomes {s u : State} (h : TopAgree s u) (a b : Option Byte) :
    OutcomesAgree (.next (s.answer a)) (.next (u.answer b)) := by
  intro t ht
  cases ht
  exact ⟨_, rfl, h⟩

theorem TopAgree.topNibble_getD {s u : State} (h : TopAgree s u) (a : Byte) :
    topNibble ((u.readByte? a).getD 0) = topNibble ((s.readByte? a).getD 0) := by
  obtain ⟨-, -, -, -, -, hbuf⟩ := h
  have hmap := congrArg (fun o : Option Nibble => o.getD (topNibble 0)) (hbuf a)
  simpa only [Option.getD_map] using hmap

/-- Two states of one trace and the same constants drive alike: after the same events they still agree. -/
theorem AppendedEvents.topAgree {es : List LineEvent} {s t u v : State} (hs : AppendedEvents es s t)
    (hu : AppendedEvents es u v) (h : TopAgree s u) : TopAgree t v := by
  obtain ⟨hlines, htrace, hparams, hpending, hdraws, hbuf⟩ := h
  refine ⟨?_, ?_, ?_, ?_, ?_, fun a => ?_⟩
  · rw [hu.lines, hs.lines, hlines]
  · rw [hu.trace, hs.trace, htrace]
  · rw [hu.params, hs.params, hparams]
  · rw [hu.pending, hs.pending, hpending]
  · rw [hu.draws, hs.draws, hdraws]
  · rw [hu.sameBuf, hs.sameBuf, hbuf]

theorem topNibble_mask (v clear set : Byte) :
    topNibble (v &&& ~~~clear ||| set) = topNibble v &&& topNibble (~~~clear) ||| topNibble set := by
  rw [topNibble, BitVec.extractLsb'_or, BitVec.extractLsb'_and]
  rfl

/-- A masked top nibble depends on the top nibble alone (R57). -/
theorem MasksBytes.topAgree {clear set : Byte → Byte} {s t u v : State} (hs : MasksBytes clear set s t)
    (hu : MasksBytes clear set u v) (h : TopAgree s u) : TopAgree t v := by
  obtain ⟨hlines, htrace, hparams, hpending, hdraws, hbuf⟩ := h
  refine ⟨?_, ?_, ?_, ?_, ?_, fun a => ?_⟩
  · rw [hu.bufOnly.lines, hs.bufOnly.lines, hlines]
  · rw [hu.bufOnly.sameLines.2, hs.bufOnly.sameLines.2, htrace]
  · rw [hu.bufOnly.params, hs.bufOnly.params, hparams]
  · rw [hu.bufOnly.pending, hs.bufOnly.pending, hpending]
  · rw [hu.bufOnly.draws, hs.bufOnly.draws, hdraws]
  · have hnibble : ∀ o : Option Byte, (o.map fun v => v &&& ~~~clear a ||| set a).map topNibble =
        (o.map topNibble).map fun n => n &&& topNibble (~~~clear a) ||| topNibble (set a) := by
      intro o
      cases o with
      | none => rfl
      | some v => exact congrArg some (topNibble_mask v _ _)
    rw [hu.read, hs.read, hnibble, hnibble, hbuf]

theorem ActsByMasks.outcomesAgree {i : Instr} {s u : State} (hacts : ActsByMasks s.params i) (h : TopAgree s u) :
    OutcomesAgree (exec i s) (exec i u) := by
  obtain ⟨clear, set, hmasks⟩ := hacts
  have ⟨_, _, hparams, _⟩ := h
  obtain ⟨t, ht, hst⟩ := hmasks s rfl
  obtain ⟨v, hv, huv⟩ := hmasks u hparams
  rw [ht, hv]
  exact (hst.topAgree huv h).outcomes none none

/-- The frames of a flush are made of the top nibbles (R57, R95). -/
theorem TopAgree.flushFrames_eq {s u : State} (h : TopAgree s u) (as : List Byte) : flushFrames u as = flushFrames s as := by
  have ⟨_, _, hparams, _⟩ := h
  simp only [flushFrames, hparams, h.topNibble_getD]

theorem TopAgree.flushBuf {s u : State} (h : TopAgree s u) : TopAgree s.flushBuf u.flushBuf :=
  s.flushBuf_appended.topAgree (h.flushFrames_eq bufAddresses ▸ u.flushBuf_appended) h

/-- A read in range takes no draw, one out of range a draw, in both states (R93). -/
theorem TopAgree.fetchByte {s u : State} (h : TopAgree s u) (a : Byte) :
    TopAgree (s.fetchByte a).2 (u.fetchByte a).2 := by
  have ⟨hlines, htrace, hparams, hpending, hdraws, hbuf⟩ := h
  rcases s.fetchByte_spec a with ⟨v, hv, hs⟩ | ⟨hv, hs⟩ <;> rcases u.fetchByte_spec a with ⟨w, hw, hu⟩ | ⟨hw, hu⟩
  · rw [hs, hu]; exact h
  · exact absurd (hbuf a) (by rw [hv, hw]; exact nofun)
  · exact absurd (hbuf a) (by rw [hv, hw]; exact nofun)
  · rw [hs, hu]; exact ⟨hlines, htrace, hparams, hpending, congrArg (· + 1) hdraws, hbuf⟩

theorem TopAgree.commands {s u : State} (h : TopAgree s u) (os : List Byte) :
    TopAgree (os.foldl (fun t o => t.writeCommand o) s) (os.foldl (fun t o => t.writeCommand o) u) :=
  (commands_appended os s).topAgree (commands_appended os u) h

theorem TopAgree.startup {s u : State} (h : TopAgree s u) : TopAgree s.startup u.startup := by
  have ⟨_, _, hparams, _⟩ := h
  rw [State.startup, State.startup, hparams]
  exact ((State.fillBuf_masksBytes 0 _).topAgree (State.fillBuf_masksBytes 0 _) (h.commands _)).flushBuf

/-- No operation lets a bottom nibble out: by what it drives (`AppendedEvents.topAgree`) or how it masks the bytes
(`MasksBytes.topAgree`). -/
theorem TopAgree.exec {s u : State} (h : TopAgree s u) (i : Instr) : OutcomesAgree (exec i s) (exec i u) := by
  have ⟨_, _, hparams, _⟩ := h
  cases i with
  | wrcmd o => exact ((s.writeCommand_appended o).topAgree (u.writeCommand_appended o) h).outcomes _ _
  | wraddr a n =>
    have hu := u.writeAddress_appended a n
    rw [hparams] at hu
    exact ((s.writeAddress_appended a n).topAgree hu h).outcomes _ _
  | setbit g => exact (setbit_actsByMasks _ g).outcomesAgree h
  | clrbit g => exact (clrbit_actsByMasks _ g).outcomesAgree h
  | fill v => exact (fill_actsByMasks _ v).outcomesAgree h
  | rdbyte a => exact (h.fetchByte a).outcomes _ _
  | wrbyte a v => exact (wrbyte_actsByMasks _ a v).outcomesAgree h
  | flush => exact h.flushBuf.outcomes _ _
  | pattern c => exact h.outcomes _ _
  | blset l =>
    have hu := u.setBacklight_appended l
    rw [hparams] at hu
    exact ((s.setBacklight_appended l).topAgree hu h).outcomes _ _
  | init => exact h.startup.outcomes _ _
  | dispstr x => exact (dispstr_actsByMasks _ x).outcomesAgree h
  | dispint n => exact (dispint_actsByMasks _ n).outcomesAgree h
  | disphex n => exact (disphex_actsByMasks _ n).outcomesAgree h
  | frameCmd o => exact h.outcomes _ _
  | frameData f n => exact h.outcomes _ _

theorem TopAgree.issue {s u : State} (h : TopAgree s u) (r : Request) :
    OutcomesAgree (State.issue r s) (State.issue r u) := by
  have ⟨_, _, hparams, _⟩ := h
  match r with
  | .call i => exact h.exec i
  | .packet (.wire bits) => exact h.outcomes _ _
  | .packet (.host w) =>
    rcases decodeHost_row w with ⟨-, herror⟩ | ⟨i, hi, -⟩
    · rw [State.issue_reserved herror, State.issue_reserved herror]
      exact h.outcomes _ _
    · rw [State.issue_word hi, State.issue_word hi, State.runDecoded, State.runDecoded, hparams]
      split
      · intro t ht; cases ht
      · exact h.exec i

/-- Settles O37: the two states have the same requests, and agree after whatever the first of them does (`TopAgree.issue`). -/
theorem bottomNibblesNeverReachTheBus : Obligations.BottomNibblesNeverReachTheBus := by
  intro s u t h ht
  have ⟨hlines, htrace, hparams, hpending, hdraws, hbuf⟩ := h
  match hs : s.pending with
  | [] =>
    rw [step_idle hs] at ht
    cases ht
    exact ⟨u, step_idle (hpending.trans hs), h⟩
  | r :: rest =>
    rw [step_request hs] at ht
    rw [step_request (hpending.trans hs)]
    have hpop : TopAgree { s with pending := rest } { u with pending := rest } :=
      ⟨hlines, htrace, hparams, rfl, hdraws, hbuf⟩
    exact hpop.issue r t ht

end Sys2Proof.Machine
end

section
/-! Proofs of the family other, the digit composer (43_digit_composer.md R120 to R126, 30_encoding.md R64). -/

namespace Sys2Proof.Machine

/-! ## The segments of a render, by digit and label -/

theorem bindings_count (b : Bindings) : b.count = 2 ∨ b.count = 3 := by
  cases b with
  | two => exact .inl rfl
  | three => exact .inr rfl

/-- One entry for each digit `k` and label `j` (A to G) that `keep` holds of, digit by digit (R120). -/
def digitwise {α : Type} (n : Nat) (keep : Nat → Nat → Bool) (entry : Nat → Nat → α) : List α :=
  (List.range n).flatMap fun k => (List.range 7).flatMap fun j => if keep k j then [entry k j] else []

theorem mem_digitwise {α : Type} {n : Nat} {keep : Nat → Nat → Bool} {entry : Nat → Nat → α} {x : α} :
    x ∈ digitwise n keep entry ↔ ∃ k j, k < n ∧ j < 7 ∧ keep k j = true ∧ x = entry k j := by
  simp only [digitwise, List.mem_flatMap, List.mem_range, List.mem_ite_nil_right, List.mem_singleton]
  constructor
  · rintro ⟨k, hk, j, hj, hkeep, rfl⟩; exact ⟨k, j, hk, hj, hkeep, rfl⟩
  · rintro ⟨k, j, hk, hj, hkeep, rfl⟩; exact ⟨k, hk, j, hj, hkeep, rfl⟩

theorem map_digitwise {α β : Type} (f : α → β) (n : Nat) (keep : Nat → Nat → Bool) (entry : Nat → Nat → α) :
    (digitwise n keep entry).map f = digitwise n keep fun k j => f (entry k j) := by
  simp only [digitwise, List.map_flatMap, apply_ite (List.map f), List.map_cons, List.map_nil]

theorem filter_eq_flatMap_ite {α : Type} (keep : α → Bool) (xs : List α) :
    xs.filter keep = xs.flatMap fun x => if keep x then [x] else [] := by
  induction xs with
  | nil => rfl
  | cons x xs ih => rw [List.filter_cons, ih, List.flatMap_cons]; split <;> rfl

theorem filterMap_eq_flatMap_ite {α β : Type} (keep : α → Bool) (entry : α → β) (xs : List α) :
    (xs.filterMap fun x => if keep x then some (entry x) else none) = xs.flatMap fun x => if keep x then [entry x] else [] := by
  rw [List.filterMap_eq_flatMap_toList]
  refine congrArg (xs.flatMap ·) (funext fun x => ?_)
  split <;> rfl

theorem digit_segs_eq_map (d : Digit) : d.segs = (List.range 7).map fun j => d.segs.getD j .nul := rfl

theorem slots_eq_map_digit (b : Bindings) : b.slots = (List.range b.count).map b.digit := by
  cases b <;> rfl

/-- A digit's seven segments with the pattern's seven bits: bit 6 - j for label j (R59, R124). -/
theorem segs_zip_msbFirst (d : Digit) (v : Pattern) :
    d.segs.zip (msbFirst v) = (List.range 7).map fun j => (d.segs.getD j .nul, v.getLsbD (6 - j)) := by
  simp [Digit.segs, msbFirst, List.range_succ, BitVec.getMsbD]

/-- Digit k shows the k-th character of a text that has one for every digit (R123). -/
theorem slots_zip (b : Bindings) {text : List Byte} (h : b.count ≤ text.length) :
    b.slots.zip text = (List.range b.count).map fun k => (b.digit k, text.getD k space) := by
  apply List.ext_getElem
  · simp [slots_eq_map_digit b, h]
  · intro k hk hk'
    have hlt : k < b.count := by simpa using hk'
    simp [slots_eq_map_digit b, Nat.lt_of_lt_of_le hlt h]

/-- The bound segments, by digit and label. -/
theorem boundSegs_eq_digitwise (p : Params) :
    boundSegs p = digitwise p.display.digits.count (fun k j => bindingAt p k j ≠ .nul) (bindingAt p) := by
  rw [boundSegs, List.filter_flatMap, slots_eq_map_digit, List.flatMap_map]
  refine congrArg ((List.range _).flatMap ·) (funext fun k => ?_)
  rw [digit_segs_eq_map, filter_eq_flatMap_ite, List.flatMap_map]
  rfl

/-- The lit segments, by digit and label. -/
theorem litSegs_eq_digitwise (p : Params) (text : List Byte) :
    litSegs p (pad p.display.digits.count text) =
      digitwise p.display.digits.count (showsBit p text) (bindingAt p) := by
  rw [litSegs, slots_zip _ (pad_length _ text), List.flatMap_map]
  refine congrArg ((List.range _).flatMap ·) (funext fun k => ?_)
  rw [segs_zip_msbFirst, List.filterMap_map]
  exact filterMap_eq_flatMap_ite (showsBit p text k) (bindingAt p k) _

/-! ## DISPSTR is its expansion (R64) -/

theorem expansion_eq (p : Params) (text : List Byte) :
    expansion p text =
      (boundSegs p).map .clrbit ++ (litSegs p (pad p.display.digits.count text)).map .setbit := by
  rw [boundSegs_eq_digitwise, litSegs_eq_digitwise, map_digitwise, map_digitwise]
  simp only [expansion, digitwise, decide_eq_true_eq]

theorem State.writeByte_answer (a v : Byte) (s : State) (r : Option Byte) :
    (s.answer r).writeByte a v = (s.writeByte a v).answer r := by
  unfold State.writeByte
  split <;> rfl

theorem State.setBit_answer (g : Seg) (s : State) (r : Option Byte) : (s.answer r).setBit g = (s.setBit g).answer r := by
  rw [State.setBit, State.setBit, State.answer_readByte?]
  split
  · rfl
  · exact State.writeByte_answer ..

theorem State.clrBit_answer (g : Seg) (s : State) (r : Option Byte) : (s.answer r).clrBit g = (s.clrBit g).answer r := by
  rw [State.clrBit, State.clrBit, State.answer_readByte?]
  split
  · rfl
  · exact State.writeByte_answer ..

/-- Operations on SEGs that answer nothing, and read no answer, run one after another. -/
theorem runList_segs {mk : Seg → Instr} {op : State → Seg → State}
    (hexec : ∀ g s, exec (mk g) s = .next ((op s g).answer none))
    (hanswer : ∀ g s r, op (s.answer r) g = (op s g).answer r) (gs : List Seg) (is : List Instr) (s : State) (r : Option Byte) :
    ∃ r', runList (gs.map mk ++ is) (s.answer r) = runList is ((gs.foldl op s).answer r') := by
  induction gs generalizing s r with
  | nil => exact ⟨r, rfl⟩
  | cons g gs ih =>
    obtain ⟨r', h⟩ := ih (op s g) none
    refine ⟨r', ?_⟩
    rw [List.map_cons, List.cons_append, runList_cons (hexec g _), hanswer, List.foldl_cons, ← h]
    rfl

/-- Settles O42: the expansion is the CLRBITs of the bound segments and the SETBITs of the lit ones (`expansion_eq`), and so is
the render (`State.displayString_eq`). -/
theorem dispstrIsItsExpansion : Obligations.DispstrIsItsExpansion := by
  intro x s
  obtain ⟨r, hclear⟩ := runList_segs exec_clrbit State.clrBit_answer (boundSegs s.params)
    ((litSegs s.params (pad s.params.display.digits.count x)).map .setbit ++ []) s s.reply
  obtain ⟨r', hset⟩ := runList_segs exec_setbit State.setBit_answer
    (litSegs s.params (pad s.params.display.digits.count x)) []
    ((boundSegs s.params).foldl (fun t g => t.clrBit g) s) r
  refine ⟨(s.displayString x).answer r', ?_, exec_dispstr x s⟩
  rw [expansion_eq, State.displayString_eq, ← List.append_nil (List.map Instr.setbit _)]
  exact hclear.trans hset

/-! ## A render touches only what is bound -/

theorem maskAt_getLsbD_eq_false {gs : List Seg} {x : Byte} {b : Nat}
    (h : ∀ g ∈ gs, ¬(g.address = x ∧ g.mask.getLsbD b = true)) : (maskAt gs x).getLsbD b = false := by
  rw [← Bool.not_eq_true, maskAt_getLsbD]
  rintro ⟨g, hg, hbit⟩
  exact h g hg hbit

/-- A bit of a byte with some bits cleared and then some set. -/
theorem mask_getLsbD (v clear set : Byte) (b : Nat) :
    (v &&& ~~~clear ||| set).getLsbD b = ((v.getLsbD b && !clear.getLsbD b) || set.getLsbD b) := by
  rw [BitVec.getLsbD_or, BitVec.getLsbD_and, BitVec.getLsbD_not]
  by_cases hb : b < 8
  · simp [hb]
  · simp [BitVec.getLsbD_of_ge v b (Nat.le_of_not_lt hb)]

/-- A bit that no bound segment has at an address is read as before a render. -/
theorem State.displayString_untouched (text : List Byte) (s : State) {a : Byte} {b : Nat}
    (h : ∀ g ∈ boundSegs s.params, ¬(g.address = a ∧ g.mask.getLsbD b = true)) :
    ((s.displayString text).readByte? a).map (·.getLsbD b) = (s.readByte? a).map (·.getLsbD b) := by
  have hlit : ∀ g ∈ litSegs s.params (pad s.params.display.digits.count text),
      ¬(g.address = a ∧ g.mask.getLsbD b = true) := by
    intro g hg
    rcases mem_boundSegs_of_litSegs hg with hbound | rfl
    · exact h g hbound
    · simp [Seg.nul]
  rw [State.displayString_readByte?, Option.map_map]
  refine congrArg (Option.map · _) (funext fun v => ?_)
  rw [Function.comp_apply, mask_getLsbD, maskAt_getLsbD_eq_false h, maskAt_getLsbD_eq_false hlit]
  simp

/-- Settles O41: each of the three is the render of some text, which changes the buffer only, and no bit outside the bound
segments (`State.displayString_untouched`). -/
theorem rendersTouchOnlyBoundSegments : Obligations.RendersTouchOnlyBoundSegments := by
  intro i s hi
  have hrender : ∃ text, exec i s = .next ((s.displayString text).answer none) := by
    rcases hi with ⟨x, rfl⟩ | ⟨n, rfl | rfl⟩
    · exact ⟨_, exec_dispstr x s⟩
    · exact ⟨_, exec_dispint n s⟩
    · exact ⟨_, exec_disphex n s⟩
  obtain ⟨text, hexec⟩ := hrender
  have hbuf := s.displayString_bufOnly text
  exact ⟨_, hexec, hbuf.sameLines, hbuf.sameRest, rfl, fun a b h => State.displayString_untouched text s h⟩

/-! ## A well-bound configuration shows the text (92_eei_decisions.md D13) -/

theorem eq_of_nodup_flatMap {ι α : Type} {l : List ι} {f : ι → List α} (h : (l.flatMap f).Nodup) {i j : ι} {x : α}
    (hi : i ∈ l) (hj : j ∈ l) (hxi : x ∈ f i) (hxj : x ∈ f j) : i = j := by
  obtain ⟨-, hdisjoint⟩ := List.nodup_flatMap.mp h
  have hsymm : Std.Symm (Function.onFun List.Disjoint f) := ⟨fun _ _ hd => hd.symm⟩
  by_contra hne
  exact hdisjoint.forall hi hj hne hxi hxj

/-- In a list without repetition an entry has one digit and one label. -/
theorem digitwise_injective {α : Type} {n : Nat} {keep : Nat → Nat → Bool} {entry : Nat → Nat → α}
    (h : (digitwise n keep entry).Nodup) {k j k' j' : Nat} (hk : k < n) (hj : j < 7) (hk' : k' < n) (hj' : j' < 7)
    (hkeep : keep k j = true) (hkeep' : keep k' j' = true) (he : entry k j = entry k' j') : k = k' ∧ j = j' := by
  have hmem : ∀ {k j}, keep k j = true → entry k j ∈ if keep k j then [entry k j] else [] := by
    intro k j h; simp [h]
  have hmem' : entry k j ∈ if keep k' j' then [entry k' j'] else [] := he ▸ hmem hkeep'
  have hrow : k = k' := eq_of_nodup_flatMap h (List.mem_range.mpr hk) (List.mem_range.mpr hk')
    (List.mem_flatMap.mpr ⟨j, List.mem_range.mpr hj, hmem hkeep⟩)
    (List.mem_flatMap.mpr ⟨j', List.mem_range.mpr hj', hmem'⟩)
  subst hrow
  obtain ⟨hrows, -⟩ := List.nodup_flatMap.mp h
  exact ⟨rfl, eq_of_nodup_flatMap (hrows k (List.mem_range.mpr hk)) (List.mem_range.mpr hj) (List.mem_range.mpr hj')
    (hmem hkeep) hmem'⟩

/-- Each of the four masks is one bit, in the top nibble (10_state.md R18). -/
theorem topMask_bit {m : Byte} (h : m ∈ [TopMask.x80, .x40, .x20, .x10].map TopMask.byte) :
    ∃ b, 4 ≤ b ∧ b < 8 ∧ m = BitVec.twoPow 8 b := by
  simp only [List.map_cons, List.map_nil, List.mem_cons, List.not_mem_nil, or_false] at h
  rcases h with rfl | rfl | rfl | rfl
  · exact ⟨7, by decide, by decide, rfl⟩
  · exact ⟨6, by decide, by decide, rfl⟩
  · exact ⟨5, by decide, by decide, rfl⟩
  · exact ⟨4, by decide, by decide, rfl⟩

theorem and_twoPow_ne_zero {w b : Nat} (hb : b < w) (v : BitVec w) : v &&& BitVec.twoPow w b ≠ 0 ↔ v.getLsbD b = true := by
  rw [BitVec.and_twoPow]
  split
  · rename_i h
    refine iff_of_true (fun hz => ?_) h
    have hbit := congrArg (BitVec.getLsbD · b) hz
    simp [hb] at hbit
  · rename_i h
    exact iff_of_false (fun hne => hne rfl) h

/-- Where the masks are single bits, the lit segments have a segment's bit at its address exactly when it is one of them. -/
theorem maskAt_litSegs_getLsbD {p : Params} (hwb : WellBound p) (text : List Byte) {g : Seg} {b : Nat} (hb : b < 8)
    (hmask : g.mask = BitVec.twoPow 8 b) :
    (maskAt (litSegs p text) g.address).getLsbD b = true ↔ g ∈ litSegs p text := by
  rw [maskAt_getLsbD]
  constructor
  · rintro ⟨l, hl, haddress, hbit⟩
    rcases mem_boundSegs_of_litSegs hl with hlb | rfl
    · obtain ⟨c, -, hc, hlm⟩ := topMask_bit (hwb.1 l hlb).2
      have hcb : c = b := by
        rw [hlm, BitVec.getLsbD_twoPow] at hbit
        simpa [hc, eq_comm] using hbit
      have hlg : l = g := by
        cases l
        cases g
        simp only at haddress hlm hmask
        rw [haddress, hlm, hcb, ← hmask]
      rwa [← hlg]
    · simp [Seg.nul] at hbit
  · intro hlit
    exact ⟨g, hlit, rfl, by rw [hmask, BitVec.getLsbD_twoPow]; simp [hb]⟩

section
variable {p : Params} (hwb : WellBound p) (text : List Byte) {k j : Nat} (hk : k < p.display.digits.count) (hj : j < 7)
  (hbound : bindingAt p k j ≠ .nul)
include hk hj hbound

theorem bindingAt_mem_boundSegs : bindingAt p k j ∈ boundSegs p := by
  rw [boundSegs_eq_digitwise]
  exact mem_digitwise.mpr ⟨k, j, hk, hj, decide_eq_true hbound, rfl⟩

include hwb

/-- Where no two bindings are alike, a bound segment is lit exactly when its own pattern bit is set. -/
theorem bindingAt_mem_litSegs :
    bindingAt p k j ∈ litSegs p (pad p.display.digits.count text) ↔ showsBit p text k j = true := by
  obtain ⟨-, hnodup⟩ := hwb
  rw [boundSegs_eq_digitwise] at hnodup
  rw [litSegs_eq_digitwise, mem_digitwise]
  constructor
  · rintro ⟨k', j', hk', hj', hshows, he⟩
    obtain ⟨rfl, rfl⟩ := digitwise_injective hnodup hk hj hk' hj' (decide_eq_true hbound)
      (decide_eq_true (he ▸ hbound)) he
    exact hshows
  · intro hshows
    exact ⟨k, j, hk, hj, hshows, rfl⟩

end

/-- After a render on a well-bound configuration a bound segment is lit exactly when its pattern bit is set (R126 (f)). -/
theorem State.displayString_shows (text : List Byte) (s : State) (hwb : WellBound s.params) {k j : Nat}
    (hk : k < s.params.display.digits.count) (hj : j < 7) (hbound : bindingAt s.params k j ≠ .nul) :
    ∃ v, (s.displayString text).readByte? (bindingAt s.params k j).address = some v ∧
      (v &&& (bindingAt s.params k j).mask ≠ 0 ↔ showsBit s.params text k j = true) := by
  have hmem := bindingAt_mem_boundSegs hk hj hbound
  obtain ⟨haddress, htop⟩ := hwb.1 _ hmem
  obtain ⟨b, -, hb, hmask⟩ := topMask_bit htop
  obtain ⟨old, hold⟩ := s.readByte?_of_lt haddress
  refine ⟨_, by rw [State.displayString_readByte?, hold, Option.map_some], ?_⟩
  have hclear : (maskAt (boundSegs s.params) (bindingAt s.params k j).address).getLsbD b = true :=
    (maskAt_getLsbD _ _ _).mpr ⟨_, hmem, rfl, by rw [hmask, BitVec.getLsbD_twoPow]; simp [hb]⟩
  rw [hmask, and_twoPow_ne_zero hb, mask_getLsbD, hclear, Bool.not_true, Bool.and_false, Bool.false_or,
    maskAt_litSegs_getLsbD hwb _ hb hmask, bindingAt_mem_litSegs hwb text hk hj hbound]

/-- Settles O40, by `State.displayString_shows`. -/
theorem dispstrShowsTheText : Obligations.DispstrShowsTheText :=
  ⟨hostOp_dispstr, fun x s hwb => ⟨_, exec_dispstr x s, fun _ _ hk hj hbound => s.displayString_shows x hwb hk hj hbound⟩⟩

/-! ## Padding (R122) -/

/-- Settles O43: the strings of each pair have the same padded text, or one that differs past the last digit. -/
theorem paddingQuirk : Obligations.PaddingQuirk := by
  intro s c d e x
  refine ⟨bindings_count _, fun hcount => ⟨?_, ?_⟩, fun hcount => ⟨?_, ?_⟩, fun hblank => ?_⟩
  · exact exec_dispstr_of_pad_eq (by rw [hcount]; rfl)
  · exact exec_dispstr_of_pad_eq (by rw [hcount]; rfl)
  · exact exec_dispstr_of_pad_eq (by rw [hcount]; rfl)
  · refine exec_dispstr_congr ?_
    have hslots : ∃ d0 d1, s.params.display.digits.slots = [d0, d1] := List.length_eq_two.mp hcount
    obtain ⟨d0, d1, hslots⟩ := hslots
    rw [hslots, hcount]
    rfl
  · exact exec_dispstr_of_pad_eq (pad_of_blank _ hblank)

end Sys2Proof.Machine
end

section
/-! Proofs of the family other, the numbers DISPINT and DISPHEX show (43_digit_composer.md R129 to R131). -/

namespace Sys2Proof.Machine

/-! ## The digits of a number -/

theorem digitsOf_eq_digits {base : Nat} (hbase : 1 < base) (fuel : Nat) {n : Nat} (h : n ≤ fuel) :
    digitsOf base fuel n = (Nat.digits base n).reverse := by
  induction fuel generalizing n with
  | zero =>
    obtain rfl : n = 0 := by omega
    rw [Nat.digits_zero]
    rfl
  | succ fuel ih =>
    rw [digitsOf]
    split
    · rename_i hn; simp [hn]
    · rename_i hn
      have hlt : n / base < n := Nat.div_lt_self (Nat.pos_of_ne_zero hn) hbase
      rw [ih (by omega), Nat.digits_def' hbase (Nat.pos_of_ne_zero hn), List.reverse_cons]

theorem natText_of_ne_zero {base n : Nat} (hbase : 1 < base) (hn : n ≠ 0) :
    natText base n = (Nat.digits base n).reverse.map digitCode := by
  rw [natText, if_neg hn, digitsOf_eq_digits hbase n le_rfl]

/-! ## The codes of the digits -/

theorem digitCode_toNat {d : Nat} (h : d < 16) : (digitCode d).toNat = if d < 10 then 0x30 + d else 0x41 + (d - 10) := by
  rw [digitCode]
  split <;> rw [BitVec.toNat_ofNat] <;> omega

theorem digitValue_digitCode {d : Nat} (h : d < 16) : digitValue (digitCode d) = d := by
  rw [digitValue, digitCode_toNat h]
  split <;> split <;> omega

theorem isDigitOf_digitCode {base d : Nat} (hbase : base ≤ 16) (h : d < base) : IsDigitOf base (digitCode d) := by
  have hd : d < 16 := by omega
  refine ⟨?_, by rwa [digitValue_digitCode hd]⟩
  rw [digitCode_toNat hd]
  split <;> omega

theorem digitCode_eq_zero_iff {d : Nat} (h : d < 16) : digitCode d = 0x30 ↔ d = 0 := by
  constructor
  · intro hd
    have hv := congrArg digitValue hd
    rwa [digitValue_digitCode h] at hv
  · rintro rfl; rfl

/-- The codes of digits below 16 have the digits' value. -/
theorem textValue_map_digitCode (base : Nat) {ds : List Nat} (h : ∀ d ∈ ds, d < 16) :
    textValue base (ds.reverse.map digitCode) = Nat.ofDigits base ds := by
  induction ds with
  | nil => rfl
  | cons d ds ih =>
    obtain ⟨hd, hds⟩ := List.forall_mem_cons.mp h
    rw [List.reverse_cons, List.map_append, textValue, List.foldl_append, ← textValue, ih hds, Nat.ofDigits_cons]
    simp [digitValue_digitCode hd, Nat.add_comm]

/-- Settles O44: the text is the codes of the library's digits of the number (`natText_of_ne_zero`), of which the most
significant is not 0. -/
theorem numberTextIsExact : Obligations.NumberTextIsExact := by
  intro base n hbase
  have h1 : 1 < base := by omega
  have h16 : base ≤ 16 := by omega
  by_cases hn : n = 0
  · subst hn
    have hone : natText base 0 = [0x30] := rfl
    rw [hone]
    refine ⟨by simp [textValue, digitValue], fun c hc => ?_, by simp⟩
    obtain rfl := List.mem_singleton.mp hc
    exact isDigitOf_digitCode h16 (d := 0) (by omega)
  · have hdigit : ∀ d ∈ Nat.digits base n, d < base := fun d hd => Nat.digits_lt_base h1 hd
    rw [natText_of_ne_zero h1 hn]
    refine ⟨?value, fun c hc => ?digits, iff_of_false ?first hn⟩
    case value => rw [textValue_map_digitCode base fun d hd => (hdigit d hd).trans_le h16, Nat.ofDigits_digits]
    case digits =>
      obtain ⟨d, hd, rfl⟩ := List.mem_map.mp hc
      exact isDigitOf_digitCode h16 (hdigit d (List.mem_reverse.mp hd))
    case first =>
      have hne : Nat.digits base n ≠ [] := Nat.digits_ne_nil_iff_ne_zero.mpr hn
      rw [List.head?_map, List.head?_reverse, List.getLast?_eq_getLast_of_ne_nil hne, Option.map_some, Option.some_inj,
        digitCode_eq_zero_iff ((hdigit _ (List.getLast_mem hne)).trans_le h16)]
      exact Nat.getLast_digit_ne_zero base hn

/-! ## The operand and its text -/

/-- A number of more digits than `k` has a longer text. -/
theorem lt_natText_length {base n k : Nat} (hbase : 1 < base) (h : base ^ k ≤ n) : k < (natText base n).length := by
  have hpos : 0 < base ^ k := Nat.pow_pos (by omega)
  rw [natText_of_ne_zero hbase (by omega), List.length_map, List.length_reverse]
  exact (Nat.lt_digits_length_iff hbase n).mpr h

/-- A value of INT_W bits is itself as an operand (R55). -/
theorem intOperand_of_inIntRange {intW : Nat} {i : Int} (hwidth : 16 ≤ intW) (h : InIntRange intW i) :
    intOperand intW i = i := by
  obtain ⟨hlow, hhigh⟩ := h
  have hpow : (2 : Int) * 2 ^ (intW - 1) = 2 ^ intW := mul_pow_sub_one (by omega) 2
  have hcast : ((2 ^ intW : Nat) : Int) = 2 ^ intW := Nat.cast_pow 2 intW
  rw [intOperand]
  exact Int.bmod_eq_of_le (by omega) (by omega)

theorem hostOp_dispint : HostOp 0xD (fun w => .dispint (w.extractLsb' 0 16).toInt) := by
  intro w hop
  simp [decode, decodeHost, wordInt, hop]

theorem hostOp_disphex : HostOp 0xE (fun w => .disphex (w.extractLsb' 0 16).toInt) := by
  intro w hop
  simp [decode, decodeHost, wordInt, hop]

theorem decText_of_nonneg {i : Int} (h : 0 ≤ i) : decText i = natText 10 i.toNat := by
  rw [decText, if_neg (by omega), show i.natAbs = i.toNat by omega]

theorem decText_of_neg {i : Int} (h : i < 0) : decText i = 0x2D :: natText 10 (-i).toNat := by
  rw [decText, if_pos h, show i.natAbs = (-i).toNat by omega]

/-- A value above 999 or below -99 has a text of more than three characters. -/
theorem decText_long {i : Int} (h : i < -99 ∨ 999 < i) : 3 < (decText i).length := by
  rcases h with h | h
  · rw [decText_of_neg (by omega), List.length_cons]
    have := lt_natText_length (base := 10) (n := (-i).toNat) (k := 2) (by decide) (by omega)
    omega
  · rw [decText_of_nonneg (by omega)]
    exact lt_natText_length (by decide) (by omega)

theorem exec_dispstr_of_long {x : List Byte} (h : 3 < x.length) (s : State) :
    exec (.dispstr [0x20, 0x20, 0x20]) s = exec (.dispstr x) s :=
  exec_dispstr_of_pad_eq (by rw [pad_of_blank _ (.inr h)]; rfl)

/-- Settles O45: the operand in range is the value, the text its decimal text, and a long text is shown as three spaces. -/
theorem dispintRendersTheDecimalText : Obligations.DispintRendersTheDecimalText := by
  refine ⟨hostOp_dispint, fun i s hlaws hrange => ?_⟩
  obtain ⟨-, hwidth, -⟩ := hlaws
  have hexec : exec (.dispint i) s = exec (.dispstr (decText i)) s := by
    rw [exec_dispint, exec_dispstr, intOperand_of_inIntRange hwidth hrange]
  refine ⟨_, hexec.trans (exec_dispstr _ s), fun h => ?_, fun h => ?_, fun h => ?_⟩
  · rw [← decText_of_nonneg h, exec_dispstr]
  · rw [← decText_of_neg h, exec_dispstr]
  · rw [exec_dispstr_of_long (decText_long h), exec_dispstr]

theorem hexText_of_nonneg {intW : Nat} {i : Int} (h : 0 ≤ i) : hexText intW i = natText 16 i.toNat := if_pos h

theorem hexText_of_neg {intW : Nat} {i : Int} (h : i < 0) : hexText intW i = natText 16 (i + 2 ^ intW).toNat :=
  if_neg (by omega)

/-- A value above 0xFFF, or the pattern of a negative value of 16 bits or more, has a text of more than three characters. -/
theorem hexText_long {intW : Nat} {i : Int} (hwidth : 16 ≤ intW) (hrange : InIntRange intW i) (h : i < 0 ∨ 4095 < i) :
    3 < (hexText intW i).length := by
  rcases h with h | h
  · rw [hexText_of_neg h]
    refine lt_natText_length (by decide) ?_
    obtain ⟨hlow, -⟩ := hrange
    have hpow : (2 : Int) * 2 ^ (intW - 1) = 2 ^ intW := mul_pow_sub_one (by omega) 2
    have hbig : (2 : Int) ^ 15 ≤ 2 ^ (intW - 1) := pow_le_pow_right₀ (by decide) (by omega)
    omega
  · rw [hexText_of_nonneg (by omega)]
    exact lt_natText_length (by decide) (by omega)

/-- Settles O46: as for the decimal text, with the two's-complement pattern of a negative value. -/
theorem disphexRendersTheHexText : Obligations.DisphexRendersTheHexText := by
  refine ⟨hostOp_disphex, fun i s hlaws hrange => ?_⟩
  obtain ⟨-, hwidth, -⟩ := hlaws
  have hexec : exec (.disphex i) s = exec (.dispstr (hexText s.params.intW i)) s := by
    rw [exec_disphex, exec_dispstr, intOperand_of_inIntRange hwidth hrange]
  refine ⟨_, hexec.trans (exec_dispstr _ s), fun h => ?_, fun h => ?_, fun h => ?_⟩
  · rw [← hexText_of_nonneg h, exec_dispstr]
  · rw [← hexText_of_neg h, exec_dispstr]
  · rw [exec_dispstr_of_long (hexText_long hwidth hrange h), exec_dispstr]

end Sys2Proof.Machine
end

section
/-! Proofs of the family other, the receiver view (20_memory.md R36, R37; 43_digit_composer.md R133). -/

namespace Sys2Proof.Machine

/-! ## What the receiver view holds after data frames -/

theorem Receiver.accept_dataFrame (r : Receiver) (f : AddrBits) (n : Nibble) :
    r.accept (dataFrame f n) = { r with rx := r.rx.setIfInBounds f.toNat (some n) } := by
  rw [Receiver.accept, decodeFrame_dataFrame]

theorem Receiver.nibbleAt_accept (r : Receiver) (f g : AddrBits) (n : Nibble) :
    (r.accept (dataFrame f n)).nibbleAt g = if g = f then some n else r.nibbleAt g := by
  rw [Receiver.accept_dataFrame, Receiver.nibbleAt, Receiver.nibbleAt, Vector.getElem?_setIfInBounds]
  by_cases h : g = f
  · subst h; simp [g.isLt]
  · have hne : f.toNat ≠ g.toNat := fun e => h (BitVec.eq_of_toNat_eq e.symm)
    simp [h, hne]

/-- The data frames of some addresses, each with its nibble. -/
def dataFrames (af : AddrField) (nibble : Byte → Nibble) (as : List Byte) : List (List Bool) :=
  as.map fun a => dataFrame (addrField af a) (nibble a)

/-- Data frames are no commands (R37). -/
theorem accept_dataFrames_cmds (af : AddrField) (nibble : Byte → Nibble) (as : List Byte) (r : Receiver) :
    ((dataFrames af nibble as).foldl Receiver.accept r).cmds = r.cmds := by
  induction as generalizing r with
  | nil => rfl
  | cons a as ih => exact (ih _).trans (by rw [Receiver.accept_dataFrame])

/-- At an address whose field no other of the addresses has, the receiver holds the nibble sent for it (R37). -/
theorem accept_dataFrames_nibbleAt {af : AddrField} {a : Byte} (nibble : Byte → Nibble) (as : List Byte)
    (h : ∀ x ∈ as, addrField af a = addrField af x → a = x) (r : Receiver) :
    ((dataFrames af nibble as).foldl Receiver.accept r).nibbleAt (addrField af a) =
      if a ∈ as then some (nibble a) else r.nibbleAt (addrField af a) := by
  induction as generalizing r with
  | nil => rfl
  | cons x as ih =>
    obtain ⟨hx, has⟩ := List.forall_mem_cons.mp h
    rw [dataFrames, List.map_cons, List.foldl_cons, ← dataFrames, ih has, Receiver.nibbleAt_accept]
    by_cases ha : a = x
    · subst ha; simp
    · have hne : addrField af a ≠ addrField af x := fun e => ha (hx e)
      simp [ha, hne]

/-! ## The receiver view of the operations -/

theorem State.answer_receiver (v : Option Byte) (s : State) : (s.answer v).receiver = s.receiver := rfl

theorem State.receiver_of_frames {s t : State} {fs : List (List Bool)} (h : t.frames = s.frames ++ fs) :
    t.receiver = fs.foldl Receiver.accept s.receiver := by
  rw [State.receiver, receive, h, List.foldl_append]
  rfl

/-- After a flush under TOP6 the receiver holds the top nibble of every buffer byte, and no further command (R37). -/
theorem State.flushBuf_receiver {s : State} (hq : Quiescent s) (htop : s.params.addrField = .top6) :
    s.flushBuf.receiver.cmds = s.receiver.cmds ∧
      ∀ a : Byte, a.toNat < bufSize →
        s.flushBuf.receiver.nibbleAt (addrField .top6 a) = (s.readByte? a).map topNibble := by
  have hframes := s.flushBuf_appended.drove.frames hq
  have heq : flushFrames s bufAddresses =
      dataFrames .top6 (fun a => topNibble ((s.readByte? a).getD 0)) bufAddresses := by
    rw [flushFrames, htop, dataFrames]
  rw [State.receiver_of_frames hframes, heq]
  refine ⟨accept_dataFrames_cmds _ _ _ _, fun a ha => ?_⟩
  have hdistinct : ∀ x ∈ bufAddresses, addrField .top6 a = addrField .top6 x → a = x :=
    fun x hx => addrField_top6_injective ha (mem_bufAddresses.mp hx)
  obtain ⟨v, hv⟩ := s.readByte?_of_lt ha
  rw [accept_dataFrames_nibbleAt _ _ hdistinct, if_pos (mem_bufAddresses.mpr ha), hv]
  rfl

/-- Settles O48, by `State.flushBuf_receiver`; a flush leaves the buffer as it was. -/
theorem receiverHoldsTheBufferAfterFlush : Obligations.ReceiverHoldsTheBufferAfterFlush := by
  intro s hq htop
  obtain ⟨hcmds, hnibble⟩ := State.flushBuf_receiver hq htop
  refine ⟨_, exec_flush s, ?_, fun a ha => ?_⟩
  · rw [State.answer_receiver, hcmds]
  · rw [State.answer_receiver, hnibble a ha, State.answer_readByte?, s.flushBuf_appended.sameBuf]

/-- Settles O49: the receiver accepts the one frame of WRADDR (`wraddrSendsOneDataFrame`); the state after it is quiescent, with
the buffer as it was, so the flush overwrites the nibble (`State.flushBuf_receiver`). -/
theorem directWriteIsOverwrittenByFlush : Obligations.DirectWriteIsOverwrittenByFlush := by
  intro s a n hq htop ha
  obtain ⟨-, hwrite⟩ := wraddrSendsOneDataFrame
  obtain ⟨t, hexec, -, -, hframes, hbuf, ⟨hparams, -⟩, -⟩ := hwrite a n s
  obtain ⟨hqt, -⟩ := exec_quiescent hq hexec
  obtain ⟨-, hnibble⟩ := State.flushBuf_receiver hqt (hparams ▸ htop)
  refine ⟨t, _, hexec, ?_, hbuf, exec_flush t, ?_⟩
  · rw [State.receiver_of_frames (hframes hq), htop, List.foldl_cons, List.foldl_nil, Receiver.nibbleAt_accept, if_pos rfl]
  · rw [State.answer_receiver, hnibble a ha, hbuf]

/-! ## A render and a flush -/

/-- A mask of one bit of the top nibble meets a byte where it meets the byte's top nibble (30_encoding.md R57). -/
theorem topNibble_append_and_twoPow {b : Nat} (h4 : 4 ≤ b) (hb : b < 8) (v : Byte) :
    (topNibble v ++ (0 : BitVec 4)) &&& BitVec.twoPow 8 b ≠ 0 ↔ v &&& BitVec.twoPow 8 b ≠ 0 := by
  rw [and_twoPow_ne_zero hb, and_twoPow_ne_zero hb, BitVec.getLsbD_append, topNibble, BitVec.getLsbD_extractLsb']
  have hlow : ¬ b < 4 := by omega
  have hnibble : b - 4 < 4 := by omega
  have hsum : 4 + (b - 4) = b := by omega
  simp [hlow, hnibble, hsum]

theorem receiverShows_of_nibble {s : State} {g : Seg} {v : Byte} {b : Nat} (h4 : 4 ≤ b) (hb : b < 8)
    (hmask : g.mask = BitVec.twoPow 8 b)
    (h : s.receiver.nibbleAt (addrField s.params.addrField g.address) = some (topNibble v)) :
    receiverShows s g ↔ v &&& g.mask ≠ 0 := by
  rw [receiverShows, h, hmask, ← topNibble_append_and_twoPow h4 hb]
  simp

/-- Settles O50: the render leaves the lines alone, so the flush reaches the receiver (`State.flushBuf_receiver`) with the bits
that the render set (`dispstrShowsTheText`). -/
theorem renderThenFlushReachesTheReceiver : Obligations.RenderThenFlushReachesTheReceiver := by
  intro s x hq hwb htop
  obtain ⟨-, hrender⟩ := dispstrShowsTheText
  obtain ⟨t, hexec, hshows⟩ := hrender x s hwb
  obtain ⟨hqt, -⟩ := exec_quiescent hq hexec
  have hparams : t.params = s.params := by
    obtain ⟨es, hdrove, -⟩ := exec_next hexec
    exact hdrove.params
  have htop' : t.params.addrField = .top6 := hparams ▸ htop
  obtain ⟨-, hnibble⟩ := State.flushBuf_receiver hqt htop'
  refine ⟨t.flushBuf.answer none, by rw [runList_cons hexec, runList_cons (exec_flush t), runList],
    fun k j hk hj hbound => ?_⟩
  obtain ⟨haddress, hmask⟩ := hwb.1 _ (bindingAt_mem_boundSegs hk hj hbound)
  obtain ⟨b, h4, hb, hbit⟩ := topMask_bit hmask
  obtain ⟨v, hv, hlit⟩ := hshows k j hk hj hbound
  refine (receiverShows_of_nibble (v := v) h4 hb hbit ?_).trans hlit
  rw [State.answer_receiver, State.answer_params, t.flushBuf_appended.params, htop', hnibble _ haddress, hv, Option.map_some]

end Sys2Proof.Machine
end
